-- ==== Sys2Proof/Word.lean ====
section
/-! DEFINITION. The fixed widths of the block (00_scope.md R13): no parameter changes them. -/

namespace Sys2Proof

/-- A wire byte, and the cmd value (R13). -/
abbrev Byte := BitVec 8

/-- The length field, the CRC value, the header, the trailer, the payload index and the expected length (R13). -/
abbrev Half := BitVec 16

/-- An operation word (R96) and a result word (R100). -/
abbrev Word := BitVec 32

end Sys2Proof
end

