-- ==== Sys2Proof/Machine/Operands.lean ====
section
/-! DEFINITION. Halves, bytes and words (00_scope.md R14, R15): the notation of the rules, shared by every operation. The
operands of an operation word are read in Sys2Proof/Decode.lean. -/

namespace Sys2Proof.Machine

/-- `hi8(v) = v[15:8]` (R14). -/
def hi8 (v : Half) : Byte := v.extractLsb' 8 8

/-- `lo8(v) = v[7:0]` (R14). -/
def lo8 (v : Half) : Byte := v.extractLsb' 0 8

/-- `{hi, lo}`, the 16-bit value `(hi << 8) | lo` (R15). -/
def join (hi lo : Byte) : Half := hi ++ lo

/-- `zext_16(b)` (R15). -/
def zext16 (b : Byte) : Half := b.setWidth 16

/-- `zext_32(v)` of a 16-bit value (R15, 30_encoding.md R100). -/
def zext32 (v : Half) : Word := v.setWidth 32

/-- A 16-bit field on the wire, high byte first (20_memory.md R63). -/
def wire16 (v : Half) : List Byte := [hi8 v, lo8 v]

end Sys2Proof.Machine
end

