-- ==== Sys2Proof/Config.lean ====
section
/-! DEFINITION. The build-time configuration of a block (00_scope.md R9 to R12). The spec leaves the values open
(92_eei_decisions.md D34): they are arguments of the model, carried in the state as a field that no operation writes
(notes/assumptions/1.md). This hardware leaves no result undefined, so there is no free value here. -/

namespace Sys2Proof

/-- Which bytes the decoder folds into its running CRC (R9, 42_decoder.md R170). -/
inductive CrcWindow where
  /-- The window that folds exactly the encoder's bytes (42_decoder.md R171). This hardware's value. -/
  | matched
  /-- The source's window taken literally (42_decoder.md R172). -/
  | literal
  deriving DecidableEq, Repr

/-- A configuration within the legal ranges of R9: `maxPayload` is 0 to 65534 by its type. -/
structure Config where
  /-- `HEADER` (R9). -/
  header : Half
  /-- `TRAILER` (R9). -/
  trailer : Half
  /-- `MAX_PAYLOAD` (R9, R10). -/
  maxPayload : Fin 65535
  /-- `CRC_ENABLED` (R9). -/
  crcEnabled : Bool
  /-- `CRC_WINDOW` (R9). -/
  window : CrcWindow
  deriving DecidableEq, Repr

/-- `MAX_PAYLOAD` as a number. -/
def Config.max (cfg : Config) : Nat := cfg.maxPayload.val

/-- `ENC_CAPACITY`, the size of the encoder working buffer (R11). -/
def Config.encCapacity (cfg : Config) : Nat := cfg.max + 9

/-- The source's literal configuration, the default value of the model's arguments (R12), with this hardware's CRC
window (R9). -/
def Config.literal : Config where
  header := 0xAA55
  trailer := 0x55AA
  maxPayload := 256
  crcEnabled := true
  window := .matched

end Sys2Proof
end

