-- ==== Sys2Proof/Syntax.lean ====
section
/-! DEFINITION. The five host operations as syntax (30_encoding.md R95, R97, R102). -/

namespace Sys2Proof

/-- One host operation with its operands (R95). The operand `n` of ENCODE and CRC_BULK is the length of the byte
list, as in the spec's own textual form (R102). -/
inductive Instr where
  /-- `INIT` (43_initialization.md R200). -/
  | init
  /-- `FEED b` (42_decoder.md R150). -/
  | feed (b : Byte)
  /-- `ENCODE cmd, [p0, ..]` (41_frame_encoder.md R130). -/
  | encode (cmd : Byte) (payload : List Byte)
  /-- `CRC_BULK [d0, ..]` (40_crc_engine.md R113). -/
  | crcBulk (data : List Byte)
  /-- `CRC_UPDATE acc, b` (40_crc_engine.md R112). -/
  | crcUpdate (acc : Half) (b : Byte)
  deriving DecidableEq, Repr

end Sys2Proof
end

