-- ==== Sys2Proof/WellFormed.lean ====
section
/-! DEFINITION. Which operations an operation word can spell: the count `n = w[15:0]` holds 0 to 65535
(30_encoding.md R97, R98). -/

namespace Sys2Proof

/-- The operation can be spelled: the length of its data phase fits the 16-bit count field. Every other operand fits
its field by its type. -/
def Instr.wellFormed : Instr → Bool
  | .init => true
  | .feed _ => true
  | .encode _ payload => decide (payload.length < 65536)
  | .crcBulk data => decide (data.length < 65536)
  | .crcUpdate _ _ => true

end Sys2Proof
end

