-- ==== Sys2Proof/Decode.lean ====
section
/-! DEFINITION. Operation words (30_encoding.md R96 to R99): what the host hands the block, the decoder that reads an
operation from it or refuses it by name (60_exceptions.md R221), and the encoder written from the same table. -/

namespace Sys2Proof

/-- What the host issues as one operation: the 32-bit operation word and the bytes of its data phase, in the order they
are sent (R96, R98). -/
structure Request where
  word : Word
  data : List Byte
  deriving DecidableEq, Repr

/-- Why an operation spells nothing (60_exceptions.md R221). -/
inductive EncodingRefusal where
  /-- `w[31:24]` is 0x00 or 0x06 to 0xFF (R99). -/
  | reservedOpcode
  /-- A bit that R97 marks `0` is 1 (R99). -/
  | reservedBits
  /-- The data phase does not hold exactly the bytes the word asks for (R98). -/
  | dataLength
  deriving DecidableEq, Repr

/-- `w[31:24]`, the opcode (R96). -/
def opcode (w : Word) : Byte := w.extractLsb' 24 8

/-- `w[23:16]`, ENCODE's `cmd` (R97). -/
def fieldCmd (w : Word) : Byte := w.extractLsb' 16 8

/-- `w[15:0]`, the count `n` of ENCODE and CRC_BULK (R97). -/
def fieldCount (w : Word) : Half := w.extractLsb' 0 16

/-- `w[23:8]`, CRC_UPDATE's `acc` (R97). -/
def fieldAcc (w : Word) : Half := w.extractLsb' 8 16

/-- `w[7:0]`, the byte `b` of FEED and CRC_UPDATE (R97). -/
def fieldByte (w : Word) : Byte := w.extractLsb' 0 8

/-- How many data bytes follow the operation word (R98). -/
def dataCount (w : Word) : Nat :=
  if opcode w = 0x03 ∨ opcode w = 0x04 then (fieldCount w).toNat else 0

/-- How many bytes an operation is long, found from its word alone (R98). -/
def operationLength (w : Word) : Nat := 4 + dataCount w

/-- An operation whose opcode names a row of R97: refused where a bit of `zeros` is set or the data phase is not `n`
bytes long (R221), in that order (notes/assumptions/11.md). -/
def accept (zeros : Word) (n : Nat) (r : Request) (i : Instr) : Except EncodingRefusal Instr :=
  if r.word &&& zeros ≠ 0 then .error .reservedBits
  else if r.data.length ≠ n then .error .dataLength
  else .ok i

/-- The operation a request spells, one line per row of R97, and the refusal of every other opcode (R99). -/
def decode (r : Request) : Except EncodingRefusal Instr :=
  if opcode r.word = 0x01 then accept 0x00FFFFFF 0 r .init
  else if opcode r.word = 0x02 then accept 0x00FFFF00 0 r (.feed (fieldByte r.word))
  else if opcode r.word = 0x03 then
    accept 0 (fieldCount r.word).toNat r (.encode (fieldCmd r.word) r.data)
  else if opcode r.word = 0x04 then accept 0x00FF0000 (fieldCount r.word).toNat r (.crcBulk r.data)
  else if opcode r.word = 0x05 then
    accept 0 0 r (.crcUpdate (fieldAcc r.word) (fieldByte r.word))
  else .error .reservedOpcode

/-- The word and data phase that spell a well-formed operation, from the columns of R97. -/
def encode : Instr → Request
  | .init => ⟨0x01#8 ++ 0x000000#24, []⟩
  | .feed b => ⟨0x02#8 ++ 0x0000#16 ++ b, []⟩
  | .encode cmd payload => ⟨0x03#8 ++ cmd ++ BitVec.ofNat 16 payload.length, payload⟩
  | .crcBulk data => ⟨0x04#8 ++ 0x00#8 ++ BitVec.ofNat 16 data.length, data⟩
  | .crcUpdate acc b => ⟨0x05#8 ++ acc ++ b, []⟩

/-- `k` bytes taken from the low end of `v` upwards: bits 7..0 of `v` are the first byte. -/
def bytesFrom : Nat → Nat → List Byte
  | 0, _ => []
  | k + 1, v => BitVec.ofNat 8 v :: bytesFrom k (v / 256)

/-- The request whose bits, numbered as spec/opcode_table.json numbers them, are the low `nbits` bits of `w`: the
operation word first, then as many data bytes as that word asks for; every bit above `nbits` is 0. -/
def tableRequest (nbits w : Nat) : Request :=
  let v := w % 2 ^ nbits
  ⟨BitVec.ofNat 32 v, bytesFrom (dataCount (BitVec.ofNat 32 v)) (v / 2 ^ 32)⟩

/-- The operation the decoder reads from that request, none where it refuses it. -/
def decodeTableWord (nbits w : Nat) : Option Instr :=
  match decode (tableRequest nbits w) with
  | .ok i => some i
  | .error _ => none

end Sys2Proof
end

