-- ==== Sys2Proof/Machine/State.lean ====
section
/-! DEFINITION. The state of the block (10_state.md) and of the run around it (70_reset_and_hazards.md R252). Plain data:
no field has a function type. -/

namespace Sys2Proof.Machine

/-- The decoder state register: exactly ten values, in the order of the source's transition table (10_state.md R33,
R34). -/
inductive DecoderState where
  /-- Ordinal 0: waiting for the first header byte. The initial state. -/
  | waitHeader1
  /-- Ordinal 1: waiting for the second header byte. -/
  | waitHeader2
  /-- Ordinal 2: waiting for the length field's high byte. -/
  | waitLength
  /-- Ordinal 3: waiting for the length field's low byte. -/
  | waitLengthLow
  /-- Ordinal 4: waiting for the cmd byte. -/
  | waitCmd
  /-- Ordinal 5: waiting for the next payload byte. -/
  | readData
  /-- Ordinal 6: waiting for the CRC field's high byte. -/
  | waitCrc1
  /-- Ordinal 7: waiting for the CRC field's low byte. -/
  | waitCrc2
  /-- Ordinal 8: waiting for the first trailer byte. -/
  | waitEnd1
  /-- Ordinal 9: waiting for the second trailer byte. -/
  | waitEnd2
  deriving DecidableEq, Repr

/-- A byte array of the block (20_memory.md R61) as its listed cells: indices strictly rising, no cell equal to what an
unlisted index reads as (`Memory.wf` says so). -/
abbrev Memory := List Host.Cell

/-- The decoder context (10_state.md R35). -/
structure Context where
  /-- `ctx.state`, the decoder state register. -/
  state : DecoderState
  /-- `ctx.idx`, the payload byte count consumed. -/
  idx : Half
  /-- `ctx.len`, the expected total length (the length field). -/
  len : Half
  /-- `ctx.cmd`, the cmd value. -/
  cmd : Byte
  /-- `ctx.acc`, the running CRC accumulator. -/
  acc : Half
  /-- `ctx.rxcrc`, the received CRC value. -/
  rxcrc : Half
  /-- `ctx.buf`, the payload buffer of `MAX_PAYLOAD` bytes. -/
  buf : Memory
  deriving DecidableEq, Repr

/-- An output event, which carries copies of its bytes (30_encoding.md R101). -/
inductive Event where
  /-- `TX(bytes)`: one call of `transmit` with a whole encoded frame. -/
  | tx (bytes : List Byte)
  /-- `FRAME(cmd, n, bytes)`: one call of `packetHandler`, `n` the payload byte count. -/
  | frame (cmd : Byte) (n : Half) (bytes : List Byte)
  deriving DecidableEq, Repr

/-- Why the decoder resynchronized (60_exceptions.md R211): a label of the model's trace, never seen by the host. -/
inductive Cause where
  /-- Code 1 (42_decoder.md R153). -/
  | header2Mismatch
  /-- Code 2 (R156). -/
  | lengthZero
  /-- Code 3 (R156). -/
  | lengthOverflow
  /-- Code 4 (R162). -/
  | crcMismatch
  /-- Code 5 (R164). -/
  | trailer1Mismatch
  /-- Code 6 (R165). -/
  | trailer2Mismatch
  /-- Code 7 (R166): a successful completion. -/
  | complete
  deriving DecidableEq, Repr

/-- One entry of the run's trace. -/
inductive TraceEntry where
  /-- An event the host receives (30_encoding.md R101). -/
  | event (e : Event)
  /-- A result word the host receives (30_encoding.md R100). -/
  | result (v : Word)
  /-- The cause label of a resync, in the model's trace only (60_exceptions.md R211). -/
  | resync (c : Cause)
  deriving DecidableEq, Repr

/-- A model fault (60_exceptions.md R215): the outcome of an operation the source gives no meaning in this state. `exec`
answers it; `step` records it in the fault mark and the run goes on (notes/assumptions/3.md). -/
inductive Fault where
  /-- F1 `NOT_INITIALIZED` (R216): FEED or ENCODE while `init_done` is false. Safe: the operation writes nothing. -/
  | notInitialized
  /-- F2 `ENCODE_OVER_MAX` (R218): ENCODE with a payload longer than `MAX_PAYLOAD`. Safe: the operation writes
  nothing. -/
  | encodeOverMax
  /-- F3 `INTERNAL` (R217): FEED at a payload index outside the buffer, which no reachable state holds (10_state.md R46).
  Safe: the operation writes nothing. -/
  | internal
  deriving DecidableEq, Repr

/-- A model refusal (60_exceptions.md R220, R222). -/
inductive Refusal where
  /-- An operation without a meaning yet. Safe. No arm of `exec` raises it. -/
  | notModelled (mnemonic : String)
  /-- An operation that spells nothing (R221), found by `step` when it decodes the host's request and recorded in the
  refusal mark. Safe: the block's state does not change. -/
  | encoding (reason : EncodingRefusal)
  /-- A configuration outside the legal ranges (R222), raised by `buildBlock` and by nothing that a built block does.
  Safe: there is no block. -/
  | illegalConfiguration
  deriving DecidableEq, Repr

/-- The state: the block's own storage, the parameters it was built with, and the run around it. -/
structure State where
  /-- The build-time configuration (00_scope.md R9, 10_state.md R40). No operation writes it (notes/assumptions/1.md). -/
  cfg : Config
  /-- `init_done` (10_state.md R36). -/
  initDone : Bool
  /-- The one decoder context (10_state.md R35, R38). -/
  ctx : Context
  /-- The encoder working buffer of `MAX_PAYLOAD + 9` bytes (10_state.md R39, 20_memory.md R61). -/
  encBuf : Memory
  /-- The MODEL's own: the operations the host has still to issue, oldest first (R252; notes/assumptions/2.md). -/
  pending : List Request
  /-- The MODEL's own: results, events and resync labels so far, oldest first (R252; notes/assumptions/8.md). -/
  trace : List TraceEntry
  /-- The fault mark (60_exceptions.md R215); none is clear. -/
  faultMark : Option Fault
  /-- The refusal mark (60_exceptions.md R220); none is clear. -/
  refusalMark : Option Refusal
  deriving DecidableEq, Repr

/-- The context right after hardware reset. The spec leaves every field unspecified (10_state.md R42); the values are the
model's, DESIGN CHOICE (notes/assumptions/5.md): those that INIT would write (R43), and a buffer with nothing listed
(notes/assumptions/6.md). -/
def Context.atReset : Context where
  state := .waitHeader1
  idx := 0x0000
  len := 0x0000
  cmd := 0x00
  acc := 0xFFFF
  rxcrc := 0x0000
  buf := []

/-- A block of configuration `cfg` right after hardware reset (70_reset_and_hazards.md R240): not initialized, the marks
clear, no event pending and no operation issued. -/
def State.resetWith (cfg : Config) : State where
  cfg := cfg
  initDone := false
  ctx := Context.atReset
  encBuf := []
  pending := []
  trace := []
  faultMark := none
  refusalMark := none

/-- The machine right after hardware reset, with the configuration arguments at their default values (00_scope.md R12). -/
def State.reset : State := State.resetWith Config.literal

end Sys2Proof.Machine
end

