-- ==== Sys2Proof/Machine/Ops.lean ====
section
/-! DEFINITION. The named operations over the block's byte arrays, its decoder context, and the run around it:
reading and writing a byte, resynchronization (the block's only trap-like mechanism, 60_exceptions.md R213), the fault and
refusal marks, taking the host's next operation, and building a block. -/

namespace Sys2Proof.Machine

/-- What a byte that nothing has written reads as: DESIGN CHOICE, no rule lets it be observed (10_state.md R47;
notes/assumptions/6.md). -/
def unwrittenByte : Byte := 0x00

/-- The cells start at or after `lo`, lie below `cap`, rise strictly, and none holds what an unlisted index reads as. -/
def Memory.wfFrom (cap : Nat) : Nat → Memory → Bool
  | _, [] => true
  | lo, (a, v) :: rest => decide (lo ≤ a ∧ a < cap ∧ v ≠ unwrittenByte) && Memory.wfFrom cap (a + 1) rest

/-- The canonical form of a byte array of `cap` bytes. -/
def Memory.wf (cap : Nat) (m : Memory) : Bool := Memory.wfFrom cap 0 m

/-- The byte at index `a`. -/
def Memory.read : Memory → Nat → Byte
  | [], _ => unwrittenByte
  | (k, v) :: rest, a => if k = a then v else Memory.read rest a

/-- The array without the cell of index `a`. -/
def Memory.erase (m : Memory) (a : Nat) : Memory := m.filter (fun c => c.1 != a)

/-- A cell put in its place by index. -/
def Memory.place : Memory → Nat → Byte → Memory
  | [], a, v => [(a, v)]
  | (k, w) :: rest, a, v => if a < k then (a, v) :: (k, w) :: rest else (k, w) :: Memory.place rest a v

/-- The array with byte `v` at index `a`; writing what an unlisted index reads as leaves the index unlisted. -/
def Memory.write (m : Memory) (a : Nat) (v : Byte) : Memory :=
  if v = unwrittenByte then Memory.erase m a else Memory.place (Memory.erase m a) a v

/-- The array with the bytes of a list at index `a` and upwards. -/
def Memory.store : Memory → Nat → List Byte → Memory
  | m, _, [] => m
  | m, a, v :: rest => Memory.store (Memory.write m a v) (a + 1) rest

/-- `n` bytes from index `a` upwards. -/
def Memory.load (m : Memory) : Nat → Nat → List Byte
  | _, 0 => []
  | a, n + 1 => Memory.read m a :: Memory.load m (a + 1) n

/-- The scalar fields at their defaults and the state WaitHeader1, the payload buffer kept (10_state.md R43). -/
def Context.toDefaults (c : Context) : Context :=
  { c with state := .waitHeader1, idx := 0x0000, len := 0x0000, cmd := 0x00, acc := 0xFFFF, rxcrc := 0x0000 }

/-- `resync()` (10_state.md R44): what every resynchronization does to the context, one operation for all of them. -/
def resync (c : Context) : Context := c.toDefaults

/-- The ordinal of a decoder state (10_state.md R33), the value of the 4-bit state register (R34, 30_encoding.md R90). -/
def DecoderState.ord : DecoderState → BitVec 4
  | .waitHeader1 => 0
  | .waitHeader2 => 1
  | .waitLength => 2
  | .waitLengthLow => 3
  | .waitCmd => 4
  | .readData => 5
  | .waitCrc1 => 6
  | .waitCrc2 => 7
  | .waitEnd1 => 8
  | .waitEnd2 => 9

/-- The code of a resync cause (60_exceptions.md R211). -/
def Cause.code : Cause → Nat
  | .header2Mismatch => 1
  | .lengthZero => 2
  | .lengthOverflow => 3
  | .crcMismatch => 4
  | .trailer1Mismatch => 5
  | .trailer2Mismatch => 6
  | .complete => 7

/-- The number of a fault code, the `k` of F`k` (60_exceptions.md R215). -/
def Fault.code : Fault → Nat
  | .notInitialized => 1
  | .encodeOverMax => 2
  | .internal => 3

/-- The state with more entries in the trace: results, events and cause labels of one operation, in order. -/
def State.emit (s : State) (es : List TraceEntry) : State := { s with trace := s.trace ++ es }

/-- The state with another decoder context. -/
def State.withCtx (s : State) (c : Context) : State := { s with ctx := c }

/-- The state with other contents of the encoder working buffer. -/
def State.withEncBuf (s : State) (m : Memory) : State := { s with encBuf := m }

/-- The state with `init_done` true (43_initialization.md R201). -/
def State.initialized (s : State) : State := { s with initDone := true }

/-- The fault mark set to a code; a mark that is set stays (60_exceptions.md R215; notes/assumptions/4.md). -/
def State.markFault (s : State) (f : Fault) : State := { s with faultMark := s.faultMark.or (some f) }

/-- The refusal mark set; a mark that is set stays for the whole run (60_exceptions.md R220; notes/assumptions/4.md). -/
def State.markRefusal (s : State) (r : Refusal) : State := { s with refusalMark := s.refusalMark.or (some r) }

/-- The state with the operations still to issue replaced. -/
def State.withPending (s : State) (rs : List Request) : State := { s with pending := rs }

/-- The host's move of issuing one more operation after those it has issued (60_exceptions.md R230). -/
def State.issue (s : State) (r : Request) : State := s.withPending (s.pending ++ [r])

/-- What the run records of an operation's outcome: a next state as it is; of a fault or a refusal only the mark, the
state being otherwise the one before the operation (60_exceptions.md R215, R220; notes/assumptions/3.md). -/
def record (s : State) : Host.Outcome State Fault Refusal → Host.Outcome State Fault Refusal
  | .next t => .next t
  | .fault f => .next (s.markFault f)
  | .refused r => .next (s.markRefusal r)

/-- With no operation issued the block executes nothing and holds all its state (70_reset_and_hazards.md R240,
60_exceptions.md R229). -/
def idle (s : State) : Host.Outcome State Fault Refusal := .next s

/-- Building a block and its hardware reset, the configuration given as plain numbers: refused outside the legal ranges of
00_scope.md R9 (60_exceptions.md R222). -/
def buildBlock (header trailer maxPayload : Nat) (crcEnabled : Bool) (window : CrcWindow) :
    Host.Outcome State Fault Refusal :=
  if h : header < 65536 ∧ trailer < 65536 ∧ maxPayload < 65535 then
    .next (State.resetWith
      { header := BitVec.ofNat 16 header
        trailer := BitVec.ofNat 16 trailer
        maxPayload := ⟨maxPayload, h.2.2⟩
        crcEnabled := crcEnabled
        window := window })
  else .refused .illegalConfiguration

end Sys2Proof.Machine
end

