-- ==== Sys2Proof/Machine/Crc.lean ====
section
/-! DEFINITION. The CRC16-CCITT engine and its two operations (40_crc_engine.md). -/

namespace Sys2Proof.Machine

/-- The generator polynomial (R110). -/
def crcPoly : Half := 0x1021

/-- The initial value (R110). -/
def crcInit : Half := 0xFFFF

/-- One shift-and-XOR stage of R111: the bit that leaves bit 15 selects the polynomial. -/
def crcStage (a : Half) : Half := if a.getLsbD 15 then (a <<< 1) ^^^ crcPoly else a <<< 1

/-- `k` stages one after the other. -/
def crcStages : Nat → Half → Half
  | 0, a => a
  | k + 1, a => crcStages k (crcStage a)

/-- `crc_step(acc, b)` (R111; the algorithm is marked general knowledge there, notes/assumptions/12.md). -/
def crcStep (acc : Half) (b : Byte) : Half := crcStages 8 (acc ^^^ (zext16 b <<< 8))

/-- `crc_bulk(data)` (R113): the fold of `crc_step` from the initial value. -/
def crcBulk (data : List Byte) : Half := data.foldl crcStep crcInit

/-- CRC_UPDATE (R112): no state but the result in the trace, and no INIT needed. -/
def execCrcUpdate (acc : Half) (b : Byte) (s : State) : Host.Outcome State Fault Refusal :=
  .next (s.emit [.result (zext32 (crcStep acc b))])

/-- CRC_BULK (R113): no state but the result in the trace, and no INIT needed. -/
def execCrcBulk (data : List Byte) (s : State) : Host.Outcome State Fault Refusal :=
  .next (s.emit [.result (zext32 (crcBulk data))])

end Sys2Proof.Machine
end

