-- ==== Sys2Proof/Machine/Decoder.lean ====
section
/-! DEFINITION. The framing decoder and its operation (42_decoder.md): one function per state of the transition table, the
running CRC, and FEED. -/

namespace Sys2Proof.Machine

/-- What one transition does: the context after it and the entries it adds to the trace. -/
structure Moved where
  ctx : Context
  out : List TraceEntry
  deriving DecidableEq, Repr

/-- A transition that emits nothing and is no resync. -/
def moveTo (c : Context) : Except Fault Moved := .ok ⟨c, []⟩

/-- A transition that drops the partial frame (10_state.md R44), with its cause label (60_exceptions.md R211). -/
def dropFrame (c : Context) (cause : Cause) : Except Fault Moved := .ok ⟨resync c, [.resync cause]⟩

/-- `after_payload()` (R159). -/
def afterPayload (cfg : Config) : DecoderState := if cfg.crcEnabled then .waitCrc1 else .waitEnd1

/-- WaitHeader1 (R152). -/
def onWaitHeader1 (cfg : Config) (c : Context) (b : Byte) : Except Fault Moved :=
  if b = hi8 cfg.header then moveTo { c with state := .waitHeader2 } else moveTo c

/-- WaitHeader2 (R153, R154). -/
def onWaitHeader2 (cfg : Config) (c : Context) (b : Byte) : Except Fault Moved :=
  if b = lo8 cfg.header then moveTo { c with acc := crcInit, state := .waitLength }
  else dropFrame c .header2Mismatch

/-- WaitLength (R155). -/
def onWaitLength (c : Context) (b : Byte) : Except Fault Moved :=
  moveTo { c with len := join b (lo8 c.len), state := .waitLengthLow }

/-- WaitLengthLow (R156). -/
def onWaitLengthLow (cfg : Config) (c : Context) (b : Byte) : Except Fault Moved :=
  let c' := { c with len := join (hi8 c.len) b }
  if c'.len = 0x0000 then dropFrame c' .lengthZero
  else if cfg.max + 1 < c'.len.toNat then dropFrame c' .lengthOverflow
  else moveTo { c' with state := .waitCmd }

/-- WaitCmd (R157). -/
def onWaitCmd (cfg : Config) (c : Context) (b : Byte) : Except Fault Moved :=
  let c' := { c with cmd := b, idx := 0x0000 }
  if c'.len = 1 then moveTo { c' with state := afterPayload cfg } else moveTo { c' with state := .readData }

/-- ReadData (R158), with the fault of a buffer write out of range (60_exceptions.md R217). -/
def onReadData (cfg : Config) (c : Context) (b : Byte) : Except Fault Moved :=
  if cfg.max ≤ c.idx.toNat then .error .internal
  else
    let c' := { c with buf := Memory.write c.buf c.idx.toNat b, idx := c.idx + 1 }
    if c'.idx = c'.len - 1 then moveTo { c' with state := afterPayload cfg } else moveTo { c' with state := .readData }

/-- WaitCrc1 (R161). -/
def onWaitCrc1 (c : Context) (b : Byte) : Except Fault Moved :=
  moveTo { c with rxcrc := join b (lo8 c.rxcrc), state := .waitCrc2 }

/-- WaitCrc2 (R162): the accumulator compared is the one before this byte's fold. -/
def onWaitCrc2 (cfg : Config) (c : Context) (b : Byte) : Except Fault Moved :=
  let c' := { c with rxcrc := join (hi8 c.rxcrc) b }
  if cfg.crcEnabled = true ∧ c'.acc ≠ c'.rxcrc then dropFrame c' .crcMismatch
  else moveTo { c' with state := .waitEnd1 }

/-- WaitEnd1 (R163, R164). -/
def onWaitEnd1 (cfg : Config) (c : Context) (b : Byte) : Except Fault Moved :=
  if b = hi8 cfg.trailer then moveTo { c with state := .waitEnd2 } else dropFrame c .trailer1Mismatch

/-- The FRAME event of R166, with the payload bytes copied out of the buffer (30_encoding.md R101). -/
def frameEvent (c : Context) : Event := .frame c.cmd c.idx (Memory.load c.buf 0 c.idx.toNat)

/-- WaitEnd2 (R165, R166). An index past the buffer, which no reachable state holds, is the internal fault
(notes/assumptions/9.md). -/
def onWaitEnd2 (cfg : Config) (c : Context) (b : Byte) : Except Fault Moved :=
  if b = lo8 cfg.trailer then
    if cfg.max < c.idx.toNat then .error .internal
    else .ok ⟨resync c, [.event (frameEvent c), .resync .complete]⟩
  else dropFrame c .trailer2Mismatch

/-- Phase 1 of a FEED: exactly one transition, chosen by the current state (R151). -/
def transition (cfg : Config) (c : Context) (b : Byte) : Except Fault Moved :=
  match c.state with
  | .waitHeader1 => onWaitHeader1 cfg c b
  | .waitHeader2 => onWaitHeader2 cfg c b
  | .waitLength => onWaitLength c b
  | .waitLengthLow => onWaitLengthLow cfg c b
  | .waitCmd => onWaitCmd cfg c b
  | .readData => onReadData cfg c b
  | .waitCrc1 => onWaitCrc1 c b
  | .waitCrc2 => onWaitCrc2 cfg c b
  | .waitEnd1 => onWaitEnd1 cfg c b
  | .waitEnd2 => onWaitEnd2 cfg c b

/-- `in_window(s)`: the ordinal lies in the window's inclusive range (R171, R172). -/
def inWindow (w : CrcWindow) (st : DecoderState) : Bool :=
  match w with
  | .matched => decide (3 ≤ st.ord.toNat ∧ st.ord.toNat ≤ 6)
  | .literal => decide (2 ≤ st.ord.toNat ∧ st.ord.toNat ≤ 7)

/-- Phase 2 of a FEED (R170): the byte is folded when the state after the transition lies in the window, whatever
`CRC_ENABLED` is (R175). -/
def foldByte (cfg : Config) (c : Context) (b : Byte) : Context :=
  if inWindow cfg.window c.state then { c with acc := crcStep c.acc b } else c

/-- FEED (R150, R151). -/
def execFeed (b : Byte) (s : State) : Host.Outcome State Fault Refusal :=
  if s.initDone = false then .fault .notInitialized
  else
    match transition s.cfg s.ctx b with
    | .error f => .fault f
    | .ok m => .next ((s.withCtx (foldByte s.cfg m.ctx b)).emit m.out)

end Sys2Proof.Machine
end

