-- ==== Sys2Proof/Machine/Encoder.lean ====
section
/-! DEFINITION. The frame encoder and its operation (41_frame_encoder.md). -/

namespace Sys2Proof.Machine

/-- The bytes the encoder's CRC covers: the length field, the cmd byte and the payload, in wire order (R132). -/
def coveredBytes (cmd : Byte) (payload : List Byte) : List Byte :=
  wire16 (BitVec.ofNat 16 (payload.length + 1)) ++ [cmd] ++ payload

/-- The CRC field of a frame: present if and only if `CRC_ENABLED` (30_encoding.md R84). -/
def crcField (cfg : Config) (covered : List Byte) : List Byte :=
  if cfg.crcEnabled then wire16 (crcBulk covered) else []

/-- The whole frame, field by field (R131, 30_encoding.md R80). -/
def frameBytes (cfg : Config) (cmd : Byte) (payload : List Byte) : List Byte :=
  wire16 cfg.header ++ coveredBytes cmd payload ++ crcField cfg (coveredBytes cmd payload) ++ wire16 cfg.trailer

/-- ENCODE (R131): the frame is assembled in the working buffer from index 0, and the TX event and the result are read
from it (10_state.md R39, 30_encoding.md R100; notes/assumptions/7.md). -/
def execEncode (cmd : Byte) (payload : List Byte) (s : State) : Host.Outcome State Fault Refusal :=
  if s.initDone = false then .fault .notInitialized
  else if s.cfg.max < payload.length then .fault .encodeOverMax
  else
    let frame := frameBytes s.cfg cmd payload
    let assembled := Memory.store s.encBuf 0 frame
    .next ((s.withEncBuf assembled).emit
      [.event (.tx (Memory.load assembled 0 frame.length)), .result (BitVec.ofNat 32 frame.length)])

end Sys2Proof.Machine
end

