-- ==== Sys2Proof/Machine/Initialization.lean ====
section
/-! DEFINITION. The initialization operation (43_initialization.md). -/

namespace Sys2Proof.Machine

/-- INIT (R201): the context defaults, the payload buffer kept, and `init_done`. No result, no event, no fault. -/
def execInit (s : State) : Host.Outcome State Fault Refusal :=
  .next (s.withCtx s.ctx.toDefaults).initialized

end Sys2Proof.Machine
end

