-- ==== Sys2Proof/Machine/Dispatch.lean ====
section
/-! DEFINITION. One arm per operation of spec/opcode_table.json. -/

namespace Sys2Proof.Machine

def exec (i : Instr) (s : State) : Host.Outcome State Fault Refusal :=
  match i with
  | .init => Sys2Proof.Machine.execInit s
  | .feed b => Sys2Proof.Machine.execFeed b s
  | .encode cmd payload => Sys2Proof.Machine.execEncode cmd payload s
  | .crcBulk data => Sys2Proof.Machine.execCrcBulk data s
  | .crcUpdate acc b => Sys2Proof.Machine.execCrcUpdate acc b s

end Sys2Proof.Machine
end

