-- ==== Sys2Proof/Machine/Step.lean ====
section
/-! DEFINITION. One step of a run (70_reset_and_hazards.md R252): the block takes the host's next operation, or holds its
state when there is none. The order of the checks is that of 60_exceptions.md R219: the encoding first, then what `exec`
checks. -/

namespace Sys2Proof.Machine

/-- One atomic operation of the block (00_scope.md R3, 20_memory.md R67). -/
def step (s : State) : Host.Outcome State Fault Refusal :=
  match s.pending with
  | [] => idle s
  | r :: rest =>
    match decode r with
    | .error e => record (s.withPending rest) (.refused (.encoding e))
    | .ok i => record (s.withPending rest) (exec i (s.withPending rest))

/-- The state with the operation whose bits are `w` issued as the host's next one, so that the next step runs it; numbered
as spec/opcode_table.json numbers them, its data phase the bits above the word and zeros above `nbits`. -/
def State.withFetchWord (s : State) (nbits w : Nat) : State := s.withPending (tableRequest nbits w :: s.pending)

end Sys2Proof.Machine
end

