-- ==== Sys2Proof/Machine/Script.lean ====
section
/-! DEFINITION. Sequences of operations: the pseudo-operations the host expands (30_encoding.md R103) and the run of a list
of operations one after the other, stopping at the first that faults or is refused. -/

namespace Sys2Proof.Machine

/-- `FEEDS [b0, ..]` (R103). -/
def feeds (bytes : List Byte) : List Instr := bytes.map Instr.feed

/-- `LOOPBACK cmd, [p..]` (R103): ENCODE, then one FEED per byte of its TX event, which are the frame's bytes
(41_frame_encoder.md R131). -/
def loopback (cfg : Config) (cmd : Byte) (payload : List Byte) : List Instr :=
  .encode cmd payload :: feeds (frameBytes cfg cmd payload)

/-- The operations executed in issue order, each seeing the effects of those before it (20_memory.md R72). -/
def runOps : List Instr → State → Host.Outcome State Fault Refusal
  | [], s => .next s
  | i :: rest, s =>
    match exec i s with
    | .next t => runOps rest t
    | .fault f => .fault f
    | .refused r => .refused r

end Sys2Proof.Machine
end

