-- ==== Sys2Proof/Safety.lean ====
section
/-! DEFINITION. The terms claims are stated in: the block's invariant, what the host observes, and what a successful run
is. -/

namespace Sys2Proof.Machine

/-- Every scalar field of the context holds its default (10_state.md R43). -/
def Context.ScalarsDefault (c : Context) : Prop :=
  c.idx = 0x0000 ∧ c.len = 0x0000 ∧ c.cmd = 0x00 ∧ c.acc = 0xFFFF ∧ c.rxcrc = 0x0000

/-- What holds of the context between operations after INIT, state by state (10_state.md R45, R46). -/
def Context.Inv (cfg : Config) (c : Context) : Prop :=
  match c.state with
  | .waitHeader1 | .waitHeader2 => c.ScalarsDefault
  | .waitLength | .waitLengthLow => True
  | .waitCmd => 1 ≤ c.len.toNat ∧ c.len.toNat ≤ cfg.max + 1
  | .readData => 2 ≤ c.len.toNat ∧ c.len.toNat ≤ cfg.max + 1 ∧ c.idx.toNat < c.len.toNat - 1
  | .waitCrc1 | .waitCrc2 =>
    1 ≤ c.len.toNat ∧ c.len.toNat ≤ cfg.max + 1 ∧ c.idx.toNat = c.len.toNat - 1 ∧ cfg.crcEnabled = true
  | .waitEnd1 | .waitEnd2 => 1 ≤ c.len.toNat ∧ c.len.toNat ≤ cfg.max + 1 ∧ c.idx.toNat = c.len.toNat - 1

/-- The block's invariant: the context's after INIT (10_state.md R45, R46), and both byte arrays in canonical form within
their capacities (20_memory.md R61). -/
def State.Inv (s : State) : Prop :=
  (s.initDone = true → s.ctx.Inv s.cfg) ∧ Memory.wf s.cfg.max s.ctx.buf = true ∧
    Memory.wf s.cfg.encCapacity s.encBuf = true

/-- The events of a trace, in order (30_encoding.md R101). -/
def events (t : List TraceEntry) : List Event :=
  t.filterMap fun | .event e => some e | _ => none

/-- The payloads and commands of the FRAME events of a trace, in order. -/
def frames (t : List TraceEntry) : List Event :=
  (events t).filter fun | .frame _ _ _ => true | .tx _ => false

/-- The resync labels of a trace, in order (60_exceptions.md R211). -/
def causes (t : List TraceEntry) : List Cause :=
  t.filterMap fun | .resync c => some c | _ => none

/-- What of a trace the host sees: results and events, in order, without the resync labels (10_state.md R37, R41). -/
def hostView (t : List TraceEntry) : List TraceEntry :=
  t.filter fun | .resync _ => false | _ => true

/-- The observation of a run (70_reset_and_hazards.md R252). -/
structure Observation where
  outputs : List TraceEntry
  initDone : Bool
  ctx : Context
  encBuf : Memory
  faultMark : Option Fault
  refusalMark : Option Refusal
  deriving DecidableEq, Repr

/-- The observation of the run that ends in this state (R252). -/
def State.observation (s : State) : Observation where
  outputs := hostView s.trace
  initDone := s.initDone
  ctx := s.ctx
  encBuf := s.encBuf
  faultMark := s.faultMark
  refusalMark := s.refusalMark

/-- The run that ends in this state is a successful one: neither mark is set (R252). -/
def State.Successful (s : State) : Prop := s.faultMark = none ∧ s.refusalMark = none

/-- A fresh decoder's block (R242), or one that is scanning for a header after INIT: the state in which a frame's first
byte finds the decoder (42_decoder.md R178, R179). -/
def State.Scanning (s : State) : Prop := s.initDone = true ∧ s.ctx.state = .waitHeader1

/-- Two states that differ at most in the run around the block: the trace, the operations still to issue and the marks
(60_exceptions.md R211). -/
def State.SameBlock (s t : State) : Prop :=
  s.cfg = t.cfg ∧ s.initDone = t.initDone ∧ s.ctx = t.ctx ∧ s.encBuf = t.encBuf

end Sys2Proof.Machine
end

