-- ==== Sys2Proof/Certificates/Slice0/Obligations.lean ====
section
/-! DEFINITION. The statements for the provers, taken from the numbered rules of spec/. -/

open Sys2Proof Sys2Proof.Machine

/-! ## Operation words (30_encoding.md) -/

/-- R97, R98: reading the request that spells a well-formed operation gives that operation back, with every operand at
every value. -/
def Obligations.DecodeOfEncodeReturnsTheOperation : Prop :=
  ∀ i : Instr, i.wellFormed = true → decode (encode i) = .ok i

/-- R97, R98: every accepted request is the one that spells its operation, and that operation is well-formed: each word
has one meaning. For INIT, FEED and CRC_UPDATE this rests on the refusal of a data phase, which is the model's choice
(notes/assumptions/10.md). -/
def Obligations.AcceptedRequestIsTheEncoding : Prop :=
  ∀ (r : Request) (i : Instr), decode r = .ok i → encode i = r ∧ i.wellFormed = true

/-- R99, R221: a request is refused as RESERVED_OPCODE exactly when `w[31:24]` is 0x00 or 0x06 to 0xFF. -/
def Obligations.ReservedOpcodeRefusedExactly : Prop :=
  ∀ r : Request, decode r = .error .reservedOpcode ↔ r.word.toNat / 2 ^ 24 = 0 ∨ 6 ≤ r.word.toNat / 2 ^ 24

/-- R97, R99, R221: a request is refused as RESERVED_BITS exactly when a bit that its row of R97 marks `0` is 1: INIT's
[23:0], FEED's [23:8], CRC_BULK's [23:16]. That this is the reason given where the data phase has the wrong length too is
the model's choice (notes/assumptions/11.md). -/
def Obligations.ReservedBitsRefusedExactly : Prop :=
  ∀ r : Request, decode r = .error .reservedBits ↔
    (r.word.toNat / 2 ^ 24 = 1 ∧ r.word.toNat % 2 ^ 24 ≠ 0) ∨
    (r.word.toNat / 2 ^ 24 = 2 ∧ r.word.toNat / 2 ^ 8 % 2 ^ 16 ≠ 0) ∨
    (r.word.toNat / 2 ^ 24 = 4 ∧ r.word.toNat / 2 ^ 16 % 2 ^ 8 ≠ 0)

/-- R98, R221: of ENCODE's words, and of CRC_BULK's words without a reserved bit, exactly those whose data phase does not
hold `w[15:0]` bytes are refused as DATA_LENGTH. -/
def Obligations.WrongDataLengthRefusedExactly : Prop :=
  ∀ r : Request,
    (r.word.toNat / 2 ^ 24 = 3 ∨ (r.word.toNat / 2 ^ 24 = 4 ∧ r.word.toNat / 2 ^ 16 % 2 ^ 8 = 0)) →
    (decode r = .error .dataLength ↔ r.data.length ≠ r.word.toNat % 2 ^ 16)

/-- R98: an accepted operation is `4 + n` bytes long, `n = w[15:0]`, for ENCODE and CRC_BULK, and 4 bytes long otherwise.
That a data phase on another operation is refused is the model's choice (notes/assumptions/10.md). -/
def Obligations.AcceptedOperationLength : Prop :=
  ∀ (r : Request) (i : Instr), decode r = .ok i →
    4 + r.data.length =
      (match i with
       | .encode _ _ | .crcBulk _ => 4 + r.word.toNat % 2 ^ 16
       | .init | .feed _ | .crcUpdate _ _ => 4)

/-- R97: one word of each operation, written out from the spec's programs and vectors, is read as the operation it stands
for. -/
def Obligations.WordsOfTheSpecDecode : Prop :=
  decodeTableWord 32 0x01000000 = some .init ∧
  decodeTableWord 32 0x020000AA = some (.feed 0xAA) ∧
  decodeTableWord 32 0x037E0000 = some (.encode 0x7E []) ∧
  decodeTableWord 48 0x030203010002 = some (.encode 0x01 [0x02, 0x03]) ∧
  decodeTableWord 32 0x04000000 = some (.crcBulk []) ∧
  decodeTableWord 32 0x05123456 = some (.crcUpdate 0x1234 0x56)

/-! ## The CRC engine (40_crc_engine.md) -/

/-- R112: CRC_UPDATE completes in every state, before INIT too, with the zero-extended `crc_step` of its operands as its
result, and changes nothing else. For each byte exactly one accumulator gives 0, the byte shifted to the top. -/
def Obligations.CrcUpdateReturnsOneStep : Prop :=
  ∀ (acc : Half) (b : Byte) (s : State),
    exec (.crcUpdate acc b) s = .next { s with trace := s.trace ++ [.result ((crcStep acc b).setWidth 32)] } ∧
    (crcStep acc b = 0x0000 ↔ acc = b.setWidth 16 <<< 8)

/-- R113: CRC_BULK completes in every state, before INIT too, with the zero-extended fold of `crc_step` from 0xFFFF over
its data as its result, and changes nothing else. -/
def Obligations.CrcBulkReturnsTheFold : Prop :=
  ∀ (data : List Byte) (s : State),
    exec (.crcBulk data) s =
      .next { s with trace := s.trace ++ [.result ((data.foldl crcStep 0xFFFF).setWidth 32)] }

/-- R114, R115: the incremental use agrees with the bulk use. The CRC of a prefix is a valid accumulator for continuing
with the bytes after it; and issuing CRC_UPDATE with the 16-bit value of CRC_BULK's result as accumulator and one more
byte gives the result of CRC_BULK over the longer sequence. -/
def Obligations.IncrementalAgreesWithBulk : Prop :=
  (∀ prefixBytes rest : List Byte, crcBulk (prefixBytes ++ rest) = rest.foldl crcStep (crcBulk prefixBytes)) ∧
  ∀ (data : List Byte) (b : Byte) (s : State), ∃ v w : Half,
    exec (.crcBulk data) s = .next { s with trace := s.trace ++ [.result (v.setWidth 32)] } ∧
    exec (.crcUpdate v b) s = .next { s with trace := s.trace ++ [.result (w.setWidth 32)] } ∧
    exec (.crcBulk (data ++ [b])) s = .next { s with trace := s.trace ++ [.result (w.setWidth 32)] }

/-- R116: for each byte, `crc_step` is a bijection on the accumulator. -/
def Obligations.CrcStepBijectiveInAccumulator : Prop :=
  ∀ b : Byte, Function.Bijective fun acc : Half => crcStep acc b

/-- R117: a change to a single bit anywhere in a byte sequence changes its CRC. -/
def Obligations.SingleBitFlipChangesCrc : Prop :=
  ∀ (data : List Byte) (k : Nat) (hk : k < data.length) (bit : Fin 8),
    crcBulk (data.set k (data[k] ^^^ (0x01#8 <<< bit.val))) ≠ crcBulk data

/-! ## The frame encoder (41_frame_encoder.md) -/

/-- R80, R132: an ENCODE after INIT whose payload is no longer than `MAX_PAYLOAD` completes, and what it adds to the trace
is one TX event, the frame field by field, and the frame's length as the result. The CRC covers the length field, the cmd
byte and the payload, from 0xFFFF. -/
def Obligations.EncodeEmitsTheFrame : Prop :=
  ∀ (cmd : Byte) (payload : List Byte) (s : State), s.initDone = true → payload.length ≤ s.cfg.max →
    let L := BitVec.ofNat 16 (payload.length + 1)
    let covered := [hi8 L, lo8 L, cmd] ++ payload
    let c := covered.foldl crcStep 0xFFFF
    let frame := [hi8 s.cfg.header, lo8 s.cfg.header] ++ covered ++
      (if s.cfg.crcEnabled then [hi8 c, lo8 c] else []) ++ [hi8 s.cfg.trailer, lo8 s.cfg.trailer]
    ∃ t : State, exec (.encode cmd payload) s = .next t ∧
      t.trace = s.trace ++ [.event (.tx frame), .result (BitVec.ofNat 32 frame.length)]

/-- The frame of ENCODE (R135, 20_memory.md R62): of the state only the trace and the working buffer change. That the frame
stays in the buffer from index 0, and that its other bytes are as before, is the model's choice
(notes/assumptions/7.md). -/
def Obligations.EncodeChangesOnlyItsWorkingBuffer : Prop :=
  ∀ (cmd : Byte) (payload : List Byte) (s : State), s.initDone = true → payload.length ≤ s.cfg.max →
    ∃ (buffer : Memory) (es : List TraceEntry) (frame : List Byte) (v : Word),
      exec (.encode cmd payload) s = .next { s with encBuf := buffer, trace := s.trace ++ es } ∧
      es = [.event (.tx frame), .result v] ∧
      (∀ (k : Nat) (hk : k < frame.length), Memory.read buffer k = frame[k]) ∧
      (∀ a : Nat, frame.length ≤ a → Memory.read buffer a = Memory.read s.encBuf a)

/-- R85, R133: an ENCODE that answers a next state emitted one TX event of `n + 9` bytes when `CRC_ENABLED` and `n + 7`
otherwise, and its 32-bit result equals that count. -/
def Obligations.EncodeResultCountsTheFrame : Prop :=
  ∀ (cmd : Byte) (payload : List Byte) (s t : State), exec (.encode cmd payload) s = .next t →
    ∃ (bytes : List Byte) (v : Word), t.trace = s.trace ++ [.event (.tx bytes), .result v] ∧
      bytes.length = payload.length + (if s.cfg.crcEnabled then 9 else 7) ∧ v.toNat = bytes.length

/-- R134: an ENCODE after INIT whose payload is longer than `MAX_PAYLOAD` faults with ENCODE_OVER_MAX, whatever
`CRC_ENABLED` is. The step that takes such a request emits nothing and changes nothing but the fault mark, which was clear,
and the list of operations to issue. That requests are held in that list is the model's choice (notes/assumptions/2.md), and
that the step answers a next state, so that the run goes on, is its reading (notes/assumptions/3.md). -/
def Obligations.EncodeOverMaxFaults : Prop :=
  ∀ (cmd : Byte) (payload : List Byte) (s : State), s.initDone = true → s.cfg.max < payload.length →
    exec (.encode cmd payload) s = .fault .encodeOverMax ∧
    ∀ (r : Request) (rest : List Request), s.pending = r :: rest → decode r = .ok (.encode cmd payload) →
      s.faultMark = none → step s = .next { s with pending := rest, faultMark := some .encodeOverMax }

/-- R216, R219: FEED and ENCODE while `init_done` is false fault with NOT_INITIALIZED, an ENCODE over the maximum too. -/
def Obligations.UninitializedFeedAndEncodeFault : Prop :=
  ∀ (s : State), s.initDone = false →
    (∀ b : Byte, exec (.feed b) s = .fault .notInitialized) ∧
    (∀ (cmd : Byte) (payload : List Byte), exec (.encode cmd payload) s = .fault .notInitialized)

/-- R135: two ENCODEs with the same operands, in any two initialized states of the same configuration, emit and return the
same, and neither writes the decoder context. -/
def Obligations.EncodeIgnoresHistory : Prop :=
  ∀ (cmd : Byte) (payload : List Byte) (s s' : State),
    s.cfg = s'.cfg → s.initDone = true → s'.initDone = true → payload.length ≤ s.cfg.max →
    ∃ (es : List TraceEntry) (t t' : State),
      exec (.encode cmd payload) s = .next t ∧ exec (.encode cmd payload) s' = .next t' ∧
      t.trace = s.trace ++ es ∧ t'.trace = s'.trace ++ es ∧ t.ctx = s.ctx ∧ t'.ctx = s'.ctx

/-! ## Initialization (43_initialization.md) -/

/-- R200 to R203, R43: INIT completes in every state. It writes the context defaults, leaves the payload buffer, sets
`init_done`, and touches nothing else: no result, no event, no mark cleared. -/
def Obligations.InitWritesTheDefaults : Prop :=
  ∀ s : State, exec .init s =
    .next { s with
      initDone := true
      ctx := { state := .waitHeader1, idx := 0x0000, len := 0x0000, cmd := 0x00, acc := 0xFFFF, rxcrc := 0x0000,
               buf := s.ctx.buf } }

/-! ## The decoder's transitions (42_decoder.md). Each is a FEED's whole next state, both phases (R151) -/

/-- R152: in WaitHeader1 only the first header byte moves the decoder; any other byte changes nothing at all. -/
def Obligations.WaitHeader1AwaitsFirstHeaderByte : Prop :=
  ∀ (b : Byte) (s : State), s.initDone = true → s.ctx.state = .waitHeader1 →
    exec (.feed b) s =
      .next (if b = hi8 s.cfg.header then { s with ctx := { s.ctx with state := .waitHeader2 } } else s)

/-- R153: in WaitHeader2 a byte that is not the second header byte, the first header byte among them, is discarded. -/
def Obligations.WaitHeader2MismatchResyncs : Prop :=
  ∀ (b : Byte) (s : State), s.initDone = true → s.ctx.state = .waitHeader2 → b ≠ lo8 s.cfg.header →
    exec (.feed b) s =
      .next { s with
        ctx := { state := .waitHeader1, idx := 0x0000, len := 0x0000, cmd := 0x00, acc := 0xFFFF, rxcrc := 0x0000,
                 buf := s.ctx.buf }
        trace := s.trace ++ [.resync .header2Mismatch] }

/-- R154, R171, R172: in WaitHeader2 the second header byte resets the accumulator to 0xFFFF; the MATCHED window leaves it
there and the LITERAL window folds the byte. -/
def Obligations.WaitHeader2MatchStartsTheFrame : Prop :=
  ∀ (b : Byte) (s : State), s.initDone = true → s.ctx.state = .waitHeader2 → b = lo8 s.cfg.header →
    exec (.feed b) s =
      .next { s with
        ctx := { s.ctx with
          state := .waitLength
          acc := if s.cfg.window = .literal then crcStep 0xFFFF b else 0xFFFF } }

/-- R155: in WaitLength every byte becomes the high byte of the length. Both windows fold it. -/
def Obligations.WaitLengthStoresTheHighByte : Prop :=
  ∀ (b : Byte) (s : State), s.initDone = true → s.ctx.state = .waitLength →
    exec (.feed b) s =
      .next { s with
        ctx := { s.ctx with state := .waitLengthLow, len := join b (lo8 s.ctx.len), acc := crcStep s.ctx.acc b } }

/-- R156: in WaitLengthLow the byte completes the 16-bit length `L`. `L = 0` and `L > MAX_PAYLOAD + 1` resync, each with
its cause; any other length is accepted. Both windows fold an accepted byte. -/
def Obligations.WaitLengthLowChecksTheLength : Prop :=
  ∀ (b : Byte) (s : State), s.initDone = true → s.ctx.state = .waitLengthLow →
    let L := join (hi8 s.ctx.len) b
    let dropped : Context :=
      { state := .waitHeader1, idx := 0x0000, len := 0x0000, cmd := 0x00, acc := 0xFFFF, rxcrc := 0x0000,
        buf := s.ctx.buf }
    exec (.feed b) s =
      .next
        (if L = 0x0000 then { s with ctx := dropped, trace := s.trace ++ [.resync .lengthZero] }
         else if s.cfg.max + 1 < L.toNat then { s with ctx := dropped, trace := s.trace ++ [.resync .lengthOverflow] }
         else { s with ctx := { s.ctx with state := .waitCmd, len := L, acc := crcStep s.ctx.acc b } })

/-- R157, R159: in WaitCmd every byte becomes the cmd value and the index is zeroed. With a payload the decoder goes to
ReadData; with none to WaitCrc1 when `CRC_ENABLED` and to WaitEnd1 otherwise, which no window holds. -/
def Obligations.WaitCmdStoresCmd : Prop :=
  ∀ (b : Byte) (s : State), s.initDone = true → s.ctx.state = .waitCmd →
    exec (.feed b) s =
      .next { s with
        ctx := { s.ctx with
          state := if s.ctx.len = 1 then (if s.cfg.crcEnabled then .waitCrc1 else .waitEnd1) else .readData
          cmd := b
          idx := 0x0000
          acc := if s.ctx.len = 1 ∧ s.cfg.crcEnabled = false then s.ctx.acc else crcStep s.ctx.acc b } }

/-- R158: in ReadData with the index inside the buffer every byte is stored at the index, which then counts one more; at
`length - 1` the decoder leaves for WaitCrc1 when `CRC_ENABLED` and for WaitEnd1 otherwise (R159). Every other byte of the
buffer is as before. At an index outside the buffer the write is the INTERNAL fault. -/
def Obligations.ReadDataStoresThePayloadByte : Prop :=
  ∀ (b : Byte) (s : State), s.initDone = true → s.ctx.state = .readData →
    (s.cfg.max ≤ s.ctx.idx.toNat → exec (.feed b) s = .fault .internal) ∧
    (s.ctx.idx.toNat < s.cfg.max →
      ∃ buffer : Memory,
        exec (.feed b) s =
          .next { s with
            ctx := { s.ctx with
              state := if s.ctx.idx + 1 = s.ctx.len - 1 then (if s.cfg.crcEnabled then .waitCrc1 else .waitEnd1)
                       else .readData
              idx := s.ctx.idx + 1
              buf := buffer
              acc := if s.ctx.idx + 1 = s.ctx.len - 1 ∧ s.cfg.crcEnabled = false then s.ctx.acc
                     else crcStep s.ctx.acc b } } ∧
        Memory.read buffer s.ctx.idx.toNat = b ∧
        ∀ a : Nat, a ≠ s.ctx.idx.toNat → Memory.read buffer a = Memory.read s.ctx.buf a)

/-- R161: in WaitCrc1 every byte becomes the high byte of the received CRC. Only the LITERAL window folds it. -/
def Obligations.WaitCrc1StoresTheHighByte : Prop :=
  ∀ (b : Byte) (s : State), s.initDone = true → s.ctx.state = .waitCrc1 →
    exec (.feed b) s =
      .next { s with
        ctx := { s.ctx with
          state := .waitCrc2
          rxcrc := join b (lo8 s.ctx.rxcrc)
          acc := if s.cfg.window = .literal then crcStep s.ctx.acc b else s.ctx.acc } }

/-- R162: in WaitCrc2 the byte completes the received CRC. When `CRC_ENABLED` and the accumulator differs from it the
frame is dropped; otherwise the decoder goes to WaitEnd1. No window folds the byte. -/
def Obligations.WaitCrc2ComparesTheCrc : Prop :=
  ∀ (b : Byte) (s : State), s.initDone = true → s.ctx.state = .waitCrc2 →
    exec (.feed b) s =
      .next
        (if s.cfg.crcEnabled = true ∧ s.ctx.acc ≠ join (hi8 s.ctx.rxcrc) b then
          { s with
            ctx := { state := .waitHeader1, idx := 0x0000, len := 0x0000, cmd := 0x00, acc := 0xFFFF, rxcrc := 0x0000,
                     buf := s.ctx.buf }
            trace := s.trace ++ [.resync .crcMismatch] }
         else { s with ctx := { s.ctx with state := .waitEnd1, rxcrc := join (hi8 s.ctx.rxcrc) b } })

/-- R163, R164: in WaitEnd1 the first trailer byte moves the decoder to WaitEnd2; any other byte drops the frame. -/
def Obligations.WaitEnd1AwaitsFirstTrailerByte : Prop :=
  ∀ (b : Byte) (s : State), s.initDone = true → s.ctx.state = .waitEnd1 →
    exec (.feed b) s =
      .next
        (if b = hi8 s.cfg.trailer then { s with ctx := { s.ctx with state := .waitEnd2 } }
         else
          { s with
            ctx := { state := .waitHeader1, idx := 0x0000, len := 0x0000, cmd := 0x00, acc := 0xFFFF, rxcrc := 0x0000,
                     buf := s.ctx.buf }
            trace := s.trace ++ [.resync .trailer1Mismatch] })

/-- R165: in WaitEnd2 a byte that is not the second trailer byte drops the frame without an event. -/
def Obligations.WaitEnd2MismatchResyncs : Prop :=
  ∀ (b : Byte) (s : State), s.initDone = true → s.ctx.state = .waitEnd2 → b ≠ lo8 s.cfg.trailer →
    exec (.feed b) s =
      .next { s with
        ctx := { state := .waitHeader1, idx := 0x0000, len := 0x0000, cmd := 0x00, acc := 0xFFFF, rxcrc := 0x0000,
                 buf := s.ctx.buf }
        trace := s.trace ++ [.resync .trailer2Mismatch] }

/-- R166: in WaitEnd2 the second trailer byte emits FRAME with the cmd value, the index, and the first `ctx.idx` bytes of
the payload buffer, and then resyncs. The premise that the index is within the buffer is 10_state.md R46's invariant
(notes/assumptions/9.md). -/
def Obligations.WaitEnd2MatchDeliversTheFrame : Prop :=
  ∀ (b : Byte) (s : State), s.initDone = true → s.ctx.state = .waitEnd2 → b = lo8 s.cfg.trailer →
    s.ctx.idx.toNat ≤ s.cfg.max →
    exec (.feed b) s =
      .next { s with
        ctx := { state := .waitHeader1, idx := 0x0000, len := 0x0000, cmd := 0x00, acc := 0xFFFF, rxcrc := 0x0000,
                 buf := s.ctx.buf }
        trace := s.trace ++
          [.event (.frame s.ctx.cmd s.ctx.idx ((List.range s.ctx.idx.toNat).map fun k => Memory.read s.ctx.buf k)),
            .resync .complete] }

/-- R171, R172: the states each CRC window holds. -/
def Obligations.CrcWindowsHoldTheirStates : Prop :=
  ∀ st : DecoderState,
    (inWindow .matched st = true ↔ st ∈ [.waitLengthLow, .waitCmd, .readData, .waitCrc1]) ∧
    (inWindow .literal st = true ↔
      st ∈ [.waitLength, .waitLengthLow, .waitCmd, .readData, .waitCrc1, .waitCrc2])

/-! ## What every FEED does and leaves alone -/

/-- R150, R62: the frame of FEED. A FEED that answers a next state leaves the configuration, `init_done`, the encoder
working buffer, the operations still to issue and both marks as they are; of the payload buffer it changes at most the
byte at the index, and that only in ReadData. -/
def Obligations.FeedLeavesTheRestAlone : Prop :=
  ∀ (b : Byte) (s t : State), exec (.feed b) s = .next t →
    t.cfg = s.cfg ∧ t.initDone = s.initDone ∧ t.encBuf = s.encBuf ∧ t.pending = s.pending ∧
    t.faultMark = s.faultMark ∧ t.refusalMark = s.refusalMark ∧
    (s.ctx.state ≠ .readData → t.ctx.buf = s.ctx.buf) ∧
    ∀ a : Nat, a ≠ s.ctx.idx.toNat → Memory.read t.ctx.buf a = Memory.read s.ctx.buf a

/-- R183, R69: a FEED adds to the trace at most one FRAME event, no TX event and no result; and a FRAME only in WaitEnd2 on
the second trailer byte. -/
def Obligations.FeedEmitsAtMostOneFrame : Prop :=
  ∀ (b : Byte) (s t : State), exec (.feed b) s = .next t →
    ∃ es : List TraceEntry, t.trace = s.trace ++ es ∧ (events es).length ≤ 1 ∧
      (∀ bytes : List Byte, .event (.tx bytes) ∉ es) ∧ (∀ v : Word, .result v ∉ es) ∧
      (∀ (cmd : Byte) (n : Half) (bytes : List Byte), .event (.frame cmd n bytes) ∈ es →
        s.ctx.state = .waitEnd2 ∧ b = lo8 s.cfg.trailer)

/-- R44, R211, R213: whatever its cause, a resync leaves WaitHeader1, every scalar field at its default and the payload
buffer unchanged, within the FEED that raises it; and a FEED raises at most one. -/
def Obligations.EveryResyncLeavesTheDefaults : Prop :=
  ∀ (b : Byte) (s t : State) (es : List TraceEntry), exec (.feed b) s = .next t → t.trace = s.trace ++ es →
    (causes es).length ≤ 1 ∧
    ∀ c : Cause, .resync c ∈ es →
      t.ctx = { state := .waitHeader1, idx := 0x0000, len := 0x0000, cmd := 0x00, acc := 0xFFFF, rxcrc := 0x0000,
                buf := s.ctx.buf }

/-- R177: after INIT a FEED always completes, whatever the byte: no framing failure is a fault. Stated of every state that
meets the block's invariant (10_state.md R46). -/
def Obligations.FeedAlwaysCompletesAfterInit : Prop :=
  ∀ (b : Byte) (s : State), s.Inv → s.initDone = true → ∃ t : State, exec (.feed b) s = .next t

/-- R46, R217: in a state that meets the invariant no operation raises INTERNAL. -/
def Obligations.InternalFaultUnreachable : Prop :=
  ∀ (i : Instr) (s : State), s.Inv → exec i s ≠ .fault .internal

/-! ## The whole block -/

/-- 10_state.md R45, R46: the invariant of the decoder context after INIT, and the canonical form of both byte arrays
within their capacities, are kept by every step. -/
def Obligations.StepKeepsTheInvariant : Prop :=
  ∀ s t : State, s.Inv → step s = .next t → t.Inv

/-- The invariant holds right after hardware reset, for every configuration. Reset's buffer contents are the model's
choice (notes/assumptions/6.md). -/
def Obligations.ResetMeetsTheInvariant : Prop :=
  (∀ cfg : Config, (State.resetWith cfg).Inv) ∧ State.reset.Inv

/-- R240, R12: right after hardware reset the block is not initialized, both marks are clear, and the configuration is
the source's literal one with the MATCHED window. -/
def Obligations.ResetIsUninitialized : Prop :=
  State.reset.initDone = false ∧ State.reset.faultMark = none ∧ State.reset.refusalMark = none ∧
  State.reset.cfg.header = 0xAA55 ∧ State.reset.cfg.trailer = 0x55AA ∧ State.reset.cfg.max = 256 ∧
  State.reset.cfg.crcEnabled = true ∧ State.reset.cfg.window = .matched

/-- R38: only FEED and INIT change the decoder context. -/
def Obligations.OnlyFeedAndInitChangeTheContext : Prop :=
  ∀ (i : Instr) (s t : State), i ≠ .init → (∀ b : Byte, i ≠ .feed b) → exec i s = .next t → t.ctx = s.ctx

/-- R40, R75: no step changes the configuration. -/
def Obligations.StepNeverWritesTheConfiguration : Prop :=
  ∀ s t : State, step s = .next t → t.cfg = s.cfg

/-- R36, R201: only INIT sets `init_done`, and no operation clears it. -/
def Obligations.InitDoneChangesOnlyByInit : Prop :=
  ∀ (i : Instr) (s t : State), exec i s = .next t →
    (i = .init ∧ t.initDone = true) ∨ (i ≠ .init ∧ t.initDone = s.initDone)

/-- R215, R220: a fault mark or refusal mark that is set is never cleared by a step, INIT's included. That the first code
stays when a second fault or refusal follows is the model's choice (notes/assumptions/4.md). -/
def Obligations.MarksAreNeverCleared : Prop :=
  ∀ s t : State, step s = .next t →
    (∀ f : Fault, s.faultMark = some f → t.faultMark = some f) ∧
    (∀ r : Refusal, s.refusalMark = some r → t.refusalMark = some r)

/-- R72, R252: results and events already in the trace stay there, in order: a step only adds entries at the end. -/
def Obligations.StepOnlyExtendsTheTrace : Prop :=
  ∀ s t : State, step s = .next t → ∃ es : List TraceEntry, t.trace = s.trace ++ es

/-- R211, R37: the trace with its cause labels, the operations still to issue and the marks change no outcome. Two states
with the same block answer every operation alike. -/
def Obligations.TraceAndMarksChangeNoOutcome : Prop :=
  ∀ (i : Instr) (s s' : State), s.SameBlock s' →
    (∀ t : State, exec i s = .next t →
      ∃ (t' : State) (es : List TraceEntry), exec i s' = .next t' ∧ t.SameBlock t' ∧
        t.trace = s.trace ++ es ∧ t'.trace = s'.trace ++ es) ∧
    (∀ f : Fault, exec i s = .fault f → exec i s' = .fault f)

/-- R224, R210: every operation of the block is available at all times: none is refused once it is decoded, and it faults
only as 60_exceptions.md R215 lists. -/
def Obligations.ExecNeverRefuses : Prop :=
  ∀ (i : Instr) (s : State),
    (∀ r : Refusal, exec i s ≠ .refused r) ∧
    (exec i s = .fault .notInitialized → s.initDone = false) ∧
    (exec i s = .fault .encodeOverMax →
      ∃ (cmd : Byte) (payload : List Byte), i = .encode cmd payload ∧ s.cfg.max < payload.length)

/-- R68, R100: what each operation that completes hands the host: INIT nothing; FEED no result; ENCODE one TX and one
result; CRC_BULK and CRC_UPDATE one result and no event. -/
def Obligations.OutputsOfEachOperation : Prop :=
  ∀ (i : Instr) (s t : State), exec i s = .next t →
    ∃ es : List TraceEntry, t.trace = s.trace ++ es ∧
      (match i with
       | .init => hostView es = []
       | .feed _ => hostView es = [] ∨ ∃ (cmd : Byte) (n : Half) (bytes : List Byte),
           hostView es = [.event (.frame cmd n bytes)] ∧ bytes.length = n.toNat
       | .encode _ _ => ∃ (bytes : List Byte) (v : Word), hostView es = [.event (.tx bytes), .result v]
       | .crcBulk _ | .crcUpdate _ _ => ∃ v : Half, hostView es = [.result (v.setWidth 32)])

/-! ## Steps of a run (70_reset_and_hazards.md R252) -/

/-- R67, R72: when the host's next request decodes to an operation that completes, one step takes the request and answers
exactly what that operation answers. That requests are held in a list of the state is the model's choice
(notes/assumptions/2.md). -/
def Obligations.StepRunsTheDecodedOperation : Prop :=
  ∀ (r : Request) (rest : List Request) (i : Instr) (s t : State), s.pending = r :: rest → decode r = .ok i →
    exec i { s with pending := rest } = .next t → step s = .next t

/-- R215: when it decodes to an operation that faults, one step takes the request and changes nothing but the fault mark.
That the run then goes on, and that the first code stays, is the model's reading (notes/assumptions/3.md, 4.md), and
so is the list the request is taken from (notes/assumptions/2.md). -/
def Obligations.StepRecordsAFault : Prop :=
  ∀ (r : Request) (rest : List Request) (i : Instr) (s : State) (f : Fault), s.pending = r :: rest →
    decode r = .ok i → exec i { s with pending := rest } = .fault f →
    step s = .next { s with pending := rest, faultMark := if s.faultMark = none then some f else s.faultMark }

/-- R219, R220, R221: a request that spells nothing is refused before anything else is checked: one step takes it, and the
block's state does not change; only the refusal mark is set. That the run then goes on, and that the first reason stays, is
the model's reading (notes/assumptions/3.md, 4.md), and so is the list the request is taken from
(notes/assumptions/2.md). -/
def Obligations.StepRefusesAMalformedRequest : Prop :=
  ∀ (r : Request) (rest : List Request) (s : State) (e : EncodingRefusal), s.pending = r :: rest →
    decode r = .error e →
    step s = .next { s with
      pending := rest
      refusalMark := if s.refusalMark = none then some (.encoding e) else s.refusalMark }

/-- R229, R240, R246: with no operation issued the block holds all its state, a partial frame included. That such
a step exists is the model's choice (notes/assumptions/2.md). -/
def Obligations.IdleStepHoldsAllState : Prop :=
  ∀ s : State, s.pending = [] → step s = .next s

/-- R222, R9, R10: building a block with configuration values outside the legal ranges is refused, and with values inside
them gives the block after hardware reset with exactly those values. -/
def Obligations.BuildRefusesIllegalConfigurations : Prop :=
  ∀ (header trailer maxPayload : Nat) (crcEnabled : Bool) (window : CrcWindow),
    (header < 65536 ∧ trailer < 65536 ∧ maxPayload ≤ 65534 →
      ∃ cfg : Config, buildBlock header trailer maxPayload crcEnabled window = .next (State.resetWith cfg) ∧
        cfg.header.toNat = header ∧ cfg.trailer.toNat = trailer ∧ cfg.max = maxPayload ∧
        cfg.crcEnabled = crcEnabled ∧ cfg.window = window) ∧
    (¬ (header < 65536 ∧ trailer < 65536 ∧ maxPayload ≤ 65534) →
      buildBlock header trailer maxPayload crcEnabled window = .refused .illegalConfiguration)

/-! ## Guarantees over whole frames (42_decoder.md section 4) -/

/-- R178: the round trip. With the MATCHED window, any `CRC_ENABLED`, any cmd and any payload of at most `MAX_PAYLOAD`
bytes, a decoder scanning in WaitHeader1 after INIT that is fed the TX bytes of the ENCODE, one FEED per byte, emits
exactly one FRAME, with that cmd, length and payload, on the last byte, and ends in WaitHeader1 with the scalar fields at
their defaults. -/
def Obligations.LoopbackDeliversThePayload : Prop :=
  ∀ (cmd : Byte) (payload : List Byte) (s : State), s.Scanning → s.cfg.window = .matched →
    payload.length ≤ s.cfg.max →
    ∃ (e u t : State) (bytes : List Byte) (v : Word),
      exec (.encode cmd payload) s = .next e ∧ e.trace = s.trace ++ [.event (.tx bytes), .result v] ∧
      runOps (feeds bytes.dropLast) e = .next u ∧ u.trace = e.trace ∧
      runOps (feeds bytes) e = .next t ∧
      t.trace = e.trace ++ [.event (.frame cmd (BitVec.ofNat 16 payload.length) payload), .resync .complete] ∧
      t.ctx.state = .waitHeader1 ∧ t.ctx.ScalarsDefault

/-- R173: with the MATCHED window and `CRC_ENABLED`, when the decoder is about to take the WaitCrc2 transition of a frame
its accumulator is the CRC of the length field, the cmd byte and the payload, whatever CRC high byte is received. -/
def Obligations.MatchedAccumulatorCoversTheEncoderBytes : Prop :=
  ∀ (cmd crcHigh : Byte) (payload : List Byte) (s : State), s.Scanning → s.cfg.window = .matched →
    s.cfg.crcEnabled = true → payload.length ≤ s.cfg.max →
    let L := BitVec.ofNat 16 (payload.length + 1)
    ∃ t : State,
      runOps (feeds ([hi8 s.cfg.header, lo8 s.cfg.header, hi8 L, lo8 L, cmd] ++ payload ++ [crcHigh])) s = .next t ∧
      t.ctx.state = .waitCrc2 ∧ t.ctx.acc = crcBulk ([hi8 L, lo8 L, cmd] ++ payload) ∧ t.trace = s.trace

/-- R174: with the LITERAL window, at the same point, the accumulator also covers the second header byte and the received
CRC's high byte. -/
def Obligations.LiteralAccumulatorCoversTwoBytesMore : Prop :=
  ∀ (cmd crcHigh : Byte) (payload : List Byte) (s : State), s.Scanning → s.cfg.window = .literal →
    s.cfg.crcEnabled = true → payload.length ≤ s.cfg.max →
    let L := BitVec.ofNat 16 (payload.length + 1)
    ∃ t : State,
      runOps (feeds ([hi8 s.cfg.header, lo8 s.cfg.header, hi8 L, lo8 L, cmd] ++ payload ++ [crcHigh])) s = .next t ∧
      t.ctx.state = .waitCrc2 ∧
      t.ctx.acc = crcBulk ([lo8 s.cfg.header, hi8 L, lo8 L, cmd] ++ payload ++ [crcHigh]) ∧ t.trace = s.trace

/-- R179: noise of which no byte equals the first header byte leaves a scanning decoder, and everything else, as it is. -/
def Obligations.NoiseLeavesTheDecoderScanning : Prop :=
  ∀ (noise : List Byte) (s : State), s.Scanning → (∀ b ∈ noise, b ≠ hi8 s.cfg.header) →
    runOps (feeds noise) s = .next s

/-- R181: a frame whose length field exceeds `MAX_PAYLOAD + 1` is dropped at its length low byte, with LENGTH_OVERFLOW and
no FRAME, and the decoder is scanning again. -/
def Obligations.OverlongLengthIsRejected : Prop :=
  ∀ (L : Half) (s : State), s.Scanning → s.cfg.max + 1 < L.toNat →
    ∃ t : State,
      runOps (feeds [hi8 s.cfg.header, lo8 s.cfg.header, hi8 L, lo8 L]) s = .next t ∧ t.Scanning ∧
      t.ctx.ScalarsDefault ∧ t.trace = s.trace ++ [.resync .lengthOverflow]

/-- R182: with `CRC_ENABLED` and the MATCHED window, a frame of which one bit of the cmd or payload bytes is flipped is
dropped with CRC_MISMATCH, and feeding it emits no FRAME. `body` is the cmd byte followed by the payload. Flips in the
length field, and links with the CRC disabled, are left out. -/
def Obligations.FlippedBodyBitIsDropped : Prop :=
  ∀ (body : List Byte) (k : Nat) (hk : k < body.length) (bit : Fin 8) (s : State), s.Scanning →
    s.cfg.window = .matched → s.cfg.crcEnabled = true → body.length ≤ s.cfg.max + 1 →
    let L := BitVec.ofNat 16 body.length
    let c := crcBulk ([hi8 L, lo8 L] ++ body)
    let flipped := body.set k (body[k] ^^^ (0x01#8 <<< bit.val))
    ∃ (t : State) (es : List TraceEntry),
      runOps (feeds ([hi8 s.cfg.header, lo8 s.cfg.header, hi8 L, lo8 L] ++ flipped ++
        [hi8 c, lo8 c, hi8 s.cfg.trailer, lo8 s.cfg.trailer])) s = .next t ∧
      t.trace = s.trace ++ .resync .crcMismatch :: es ∧ events es = []

/-- R184, narrowed to frames of which no byte between the first and the last equals the first header byte: in WaitHeader2,
with `lo8(TRAILER) = hi8(HEADER)` and `hi8(HEADER) ≠ lo8(HEADER)`, such a frame is lost and leaves the decoder in
WaitHeader2 again, so the frame sent next is lost too. -/
def Obligations.LossCascadeContinues : Prop :=
  ∀ (middle : List Byte) (s : State), s.initDone = true → s.ctx.state = .waitHeader2 →
    lo8 s.cfg.trailer = hi8 s.cfg.header → hi8 s.cfg.header ≠ lo8 s.cfg.header →
    (∀ b ∈ middle, b ≠ hi8 s.cfg.header) →
    ∃ t : State,
      runOps (feeds ([hi8 s.cfg.header] ++ middle ++ [lo8 s.cfg.trailer])) s = .next t ∧
      t.initDone = true ∧ t.ctx.state = .waitHeader2 ∧ t.trace = s.trace ++ [.resync .header2Mismatch]
end

