-- ==== Sys2Proof/Laws/Decode.lean ====
section
/-! SUPPORT. The fields of an operation word as numbers (30_encoding.md R96, R97), and the number each encoded word is. -/

namespace Sys2Proof

theorem opcode_toNat (w : Word) : (opcode w).toNat = w.toNat / 2 ^ 24 := by
  have := w.isLt
  simp [opcode, Nat.shiftRight_eq_div_pow]
  omega

theorem fieldCmd_toNat (w : Word) : (fieldCmd w).toNat = w.toNat / 2 ^ 16 % 2 ^ 8 := by
  simp [fieldCmd, Nat.shiftRight_eq_div_pow]

theorem fieldCount_toNat (w : Word) : (fieldCount w).toNat = w.toNat % 2 ^ 16 := by simp [fieldCount]

theorem fieldAcc_toNat (w : Word) : (fieldAcc w).toNat = w.toNat / 2 ^ 8 % 2 ^ 16 := by
  simp [fieldAcc, Nat.shiftRight_eq_div_pow]

theorem fieldByte_toNat (w : Word) : (fieldByte w).toNat = w.toNat % 2 ^ 8 := by simp [fieldByte]

theorem append_toNat {n m : Nat} (x : BitVec n) (y : BitVec m) : (x ++ y).toNat = x.toNat * 2 ^ m + y.toNat := by
  rw [BitVec.toNat_append, ← Nat.shiftLeft_add_eq_or_of_lt y.isLt, Nat.shiftLeft_eq]

theorem encode_init_word : (encode .init).word.toNat = 0x01000000 := rfl

theorem encode_feed_word (b : Byte) : (encode (.feed b)).word.toNat = 0x02000000 + b.toNat := by
  show ((0x02#8 ++ 0x0000#16) ++ b : BitVec (8 + 16 + 8)).toNat = _
  simp only [append_toNat]
  simp

theorem encode_encode_word (cmd : Byte) (payload : List Byte) (h : payload.length < 65536) :
    (encode (.encode cmd payload)).word.toNat = 0x03000000 + cmd.toNat * 2 ^ 16 + payload.length := by
  show ((0x03#8 ++ cmd) ++ BitVec.ofNat 16 payload.length : BitVec (8 + 8 + 16)).toNat = _
  simp only [append_toNat, BitVec.toNat_ofNat]
  omega

theorem encode_crcBulk_word (data : List Byte) (h : data.length < 65536) :
    (encode (.crcBulk data)).word.toNat = 0x04000000 + data.length := by
  show ((0x04#8 ++ 0x00#8) ++ BitVec.ofNat 16 data.length : BitVec (8 + 8 + 16)).toNat = _
  simp only [append_toNat, BitVec.toNat_ofNat]
  omega

theorem encode_crcUpdate_word (acc : Half) (b : Byte) :
    (encode (.crcUpdate acc b)).word.toNat = 0x05000000 + acc.toNat * 2 ^ 8 + b.toNat := by
  show ((0x05#8 ++ acc) ++ b : BitVec (8 + 16 + 8)).toNat = _
  simp only [append_toNat]
  simp
  omega

/-- An opcode is what the top byte of the word's number says. -/
theorem opcode_eq_iff (w : Word) (op : Byte) : opcode w = op ↔ w.toNat / 2 ^ 24 = op.toNat := by
  rw [← BitVec.toNat_inj, opcode_toNat]

/-- Every answer of `accept`. -/
theorem accept_cases (zeros : Word) (n : Nat) (r : Request) (i : Instr) :
    (r.word &&& zeros ≠ 0 ∧ accept zeros n r i = .error .reservedBits) ∨
    (r.word &&& zeros = 0 ∧ r.data.length ≠ n ∧ accept zeros n r i = .error .dataLength) ∨
    (r.word &&& zeros = 0 ∧ r.data.length = n ∧ accept zeros n r i = .ok i) := by
  unfold accept
  by_cases hz : r.word &&& zeros = 0
  · by_cases hn : r.data.length = n
    · exact .inr (.inr ⟨hz, hn, by simp [hz, hn]⟩)
    · exact .inr (.inl ⟨hz, hn, by simp [hz, hn]⟩)
  · exact .inl ⟨hz, if_pos hz⟩

/-- Every answer of the decoder: the row of the word's opcode, or the refusal of a reserved opcode. -/
theorem decode_cases (r : Request) :
    (r.word.toNat / 2 ^ 24 = 1 ∧ decode r = accept 0x00FFFFFF 0 r .init) ∨
    (r.word.toNat / 2 ^ 24 = 2 ∧ decode r = accept 0x00FFFF00 0 r (.feed (fieldByte r.word))) ∨
    (r.word.toNat / 2 ^ 24 = 3 ∧
      decode r = accept 0 (fieldCount r.word).toNat r (.encode (fieldCmd r.word) r.data)) ∨
    (r.word.toNat / 2 ^ 24 = 4 ∧ decode r = accept 0x00FF0000 (fieldCount r.word).toNat r (.crcBulk r.data)) ∨
    (r.word.toNat / 2 ^ 24 = 5 ∧ decode r = accept 0 0 r (.crcUpdate (fieldAcc r.word) (fieldByte r.word))) ∨
    ((r.word.toNat / 2 ^ 24 = 0 ∨ 6 ≤ r.word.toNat / 2 ^ 24) ∧ decode r = .error .reservedOpcode) := by
  have h (k : Nat) (hk : k < 256) : opcode r.word = BitVec.ofNat 8 k ↔ r.word.toNat / 2 ^ 24 = k := by
    rw [opcode_eq_iff, BitVec.toNat_ofNat, Nat.mod_eq_of_lt hk]
  have h1 := h 1 (by decide)
  have h2 := h 2 (by decide)
  have h3 := h 3 (by decide)
  have h4 := h 4 (by decide)
  have h5 := h 5 (by decide)
  unfold decode
  split
  · exact .inl ⟨h1.mp ‹_›, rfl⟩
  · split
    · exact .inr (.inl ⟨h2.mp ‹_›, rfl⟩)
    · split
      · exact .inr (.inr (.inl ⟨h3.mp ‹_›, rfl⟩))
      · split
        · exact .inr (.inr (.inr (.inl ⟨h4.mp ‹_›, rfl⟩)))
        · split
          · exact .inr (.inr (.inr (.inr (.inl ⟨h5.mp ‹_›, rfl⟩))))
          · next n1 n2 n3 n4 n5 =>
            have n1 := mt h1.mpr n1
            have n2 := mt h2.mpr n2
            have n3 := mt h3.mpr n3
            have n4 := mt h4.mpr n4
            have n5 := mt h5.mpr n5
            exact .inr (.inr (.inr (.inr (.inr ⟨by omega, rfl⟩))))

end Sys2Proof
end

