-- ==== Sys2Proof/Laws/Operands.lean ====
section
/-! SUPPORT. Halves of a 16-bit value and their joining, as numbers (00_scope.md R14, R15). -/

namespace Sys2Proof.Machine

theorem hi8_toNat (v : Half) : (hi8 v).toNat = v.toNat / 256 := by
  have := v.isLt
  simp [hi8, Nat.shiftRight_eq_div_pow]
  omega

theorem lo8_toNat (v : Half) : (lo8 v).toNat = v.toNat % 256 := by simp [lo8]

theorem join_toNat (hi lo : Byte) : (join hi lo).toNat = hi.toNat * 256 + lo.toNat := by
  show (hi ++ lo : BitVec (8 + 8)).toNat = _
  rw [BitVec.toNat_append, ← Nat.shiftLeft_add_eq_or_of_lt lo.isLt, Nat.shiftLeft_eq]

@[simp] theorem hi8_join (hi lo : Byte) : hi8 (join hi lo) = hi := by
  apply BitVec.eq_of_toNat_eq
  have := lo.isLt
  rw [hi8_toNat, join_toNat]
  omega

@[simp] theorem lo8_join (hi lo : Byte) : lo8 (join hi lo) = lo := by
  apply BitVec.eq_of_toNat_eq
  have := lo.isLt
  rw [lo8_toNat, join_toNat]
  omega

/-- A 16-bit value is the joining of its halves. -/
@[simp] theorem join_hi8_lo8 (v : Half) : join (hi8 v) (lo8 v) = v := by
  apply BitVec.eq_of_toNat_eq
  rw [join_toNat, hi8_toNat, lo8_toNat]
  omega

@[simp] theorem length_wire16 (v : Half) : (wire16 v).length = 2 := rfl

theorem zext32_toNat (v : Half) : (zext32 v).toNat = v.toNat := by
  have := v.isLt
  simp [zext32]
  omega

end Sys2Proof.Machine
end

