-- ==== Sys2Proof/Laws/State.lean ====
section
/-! SUPPORT. What each update of the state leaves in each field: one lemma per field per update, true by rfl, so that no
proof unfolds a record update. -/

namespace Sys2Proof.Machine

@[simp] theorem State.emit_cfg (s : State) (es : List TraceEntry) : (s.emit es).cfg = s.cfg := rfl
@[simp] theorem State.emit_initDone (s : State) (es : List TraceEntry) : (s.emit es).initDone = s.initDone := rfl
@[simp] theorem State.emit_ctx (s : State) (es : List TraceEntry) : (s.emit es).ctx = s.ctx := rfl
@[simp] theorem State.emit_encBuf (s : State) (es : List TraceEntry) : (s.emit es).encBuf = s.encBuf := rfl
@[simp] theorem State.emit_pending (s : State) (es : List TraceEntry) : (s.emit es).pending = s.pending := rfl
@[simp] theorem State.emit_trace (s : State) (es : List TraceEntry) : (s.emit es).trace = s.trace ++ es := rfl
@[simp] theorem State.emit_faultMark (s : State) (es : List TraceEntry) : (s.emit es).faultMark = s.faultMark := rfl
@[simp] theorem State.emit_refusalMark (s : State) (es : List TraceEntry) : (s.emit es).refusalMark = s.refusalMark := rfl

@[simp] theorem State.withCtx_cfg (s : State) (c : Context) : (s.withCtx c).cfg = s.cfg := rfl
@[simp] theorem State.withCtx_initDone (s : State) (c : Context) : (s.withCtx c).initDone = s.initDone := rfl
@[simp] theorem State.withCtx_ctx (s : State) (c : Context) : (s.withCtx c).ctx = c := rfl
@[simp] theorem State.withCtx_encBuf (s : State) (c : Context) : (s.withCtx c).encBuf = s.encBuf := rfl
@[simp] theorem State.withCtx_pending (s : State) (c : Context) : (s.withCtx c).pending = s.pending := rfl
@[simp] theorem State.withCtx_trace (s : State) (c : Context) : (s.withCtx c).trace = s.trace := rfl
@[simp] theorem State.withCtx_faultMark (s : State) (c : Context) : (s.withCtx c).faultMark = s.faultMark := rfl
@[simp] theorem State.withCtx_refusalMark (s : State) (c : Context) : (s.withCtx c).refusalMark = s.refusalMark := rfl

@[simp] theorem State.withEncBuf_cfg (s : State) (m : Memory) : (s.withEncBuf m).cfg = s.cfg := rfl
@[simp] theorem State.withEncBuf_initDone (s : State) (m : Memory) : (s.withEncBuf m).initDone = s.initDone := rfl
@[simp] theorem State.withEncBuf_ctx (s : State) (m : Memory) : (s.withEncBuf m).ctx = s.ctx := rfl
@[simp] theorem State.withEncBuf_encBuf (s : State) (m : Memory) : (s.withEncBuf m).encBuf = m := rfl
@[simp] theorem State.withEncBuf_pending (s : State) (m : Memory) : (s.withEncBuf m).pending = s.pending := rfl
@[simp] theorem State.withEncBuf_trace (s : State) (m : Memory) : (s.withEncBuf m).trace = s.trace := rfl
@[simp] theorem State.withEncBuf_faultMark (s : State) (m : Memory) : (s.withEncBuf m).faultMark = s.faultMark := rfl
@[simp] theorem State.withEncBuf_refusalMark (s : State) (m : Memory) : (s.withEncBuf m).refusalMark = s.refusalMark := rfl

@[simp] theorem State.initialized_cfg (s : State) : (s.initialized).cfg = s.cfg := rfl
@[simp] theorem State.initialized_initDone (s : State) : (s.initialized).initDone = true := rfl
@[simp] theorem State.initialized_ctx (s : State) : (s.initialized).ctx = s.ctx := rfl
@[simp] theorem State.initialized_encBuf (s : State) : (s.initialized).encBuf = s.encBuf := rfl
@[simp] theorem State.initialized_pending (s : State) : (s.initialized).pending = s.pending := rfl
@[simp] theorem State.initialized_trace (s : State) : (s.initialized).trace = s.trace := rfl
@[simp] theorem State.initialized_faultMark (s : State) : (s.initialized).faultMark = s.faultMark := rfl
@[simp] theorem State.initialized_refusalMark (s : State) : (s.initialized).refusalMark = s.refusalMark := rfl

@[simp] theorem State.markFault_cfg (s : State) (f : Fault) : (s.markFault f).cfg = s.cfg := rfl
@[simp] theorem State.markFault_initDone (s : State) (f : Fault) : (s.markFault f).initDone = s.initDone := rfl
@[simp] theorem State.markFault_ctx (s : State) (f : Fault) : (s.markFault f).ctx = s.ctx := rfl
@[simp] theorem State.markFault_encBuf (s : State) (f : Fault) : (s.markFault f).encBuf = s.encBuf := rfl
@[simp] theorem State.markFault_pending (s : State) (f : Fault) : (s.markFault f).pending = s.pending := rfl
@[simp] theorem State.markFault_trace (s : State) (f : Fault) : (s.markFault f).trace = s.trace := rfl
@[simp] theorem State.markFault_faultMark (s : State) (f : Fault) : (s.markFault f).faultMark = s.faultMark.or (some f) := rfl
@[simp] theorem State.markFault_refusalMark (s : State) (f : Fault) : (s.markFault f).refusalMark = s.refusalMark := rfl

@[simp] theorem State.markRefusal_cfg (s : State) (r : Refusal) : (s.markRefusal r).cfg = s.cfg := rfl
@[simp] theorem State.markRefusal_initDone (s : State) (r : Refusal) : (s.markRefusal r).initDone = s.initDone := rfl
@[simp] theorem State.markRefusal_ctx (s : State) (r : Refusal) : (s.markRefusal r).ctx = s.ctx := rfl
@[simp] theorem State.markRefusal_encBuf (s : State) (r : Refusal) : (s.markRefusal r).encBuf = s.encBuf := rfl
@[simp] theorem State.markRefusal_pending (s : State) (r : Refusal) : (s.markRefusal r).pending = s.pending := rfl
@[simp] theorem State.markRefusal_trace (s : State) (r : Refusal) : (s.markRefusal r).trace = s.trace := rfl
@[simp] theorem State.markRefusal_faultMark (s : State) (r : Refusal) : (s.markRefusal r).faultMark = s.faultMark := rfl
@[simp] theorem State.markRefusal_refusalMark (s : State) (r : Refusal) : (s.markRefusal r).refusalMark = s.refusalMark.or (some r) := rfl

@[simp] theorem State.withPending_cfg (s : State) (rs : List Request) : (s.withPending rs).cfg = s.cfg := rfl
@[simp] theorem State.withPending_initDone (s : State) (rs : List Request) : (s.withPending rs).initDone = s.initDone := rfl
@[simp] theorem State.withPending_ctx (s : State) (rs : List Request) : (s.withPending rs).ctx = s.ctx := rfl
@[simp] theorem State.withPending_encBuf (s : State) (rs : List Request) : (s.withPending rs).encBuf = s.encBuf := rfl
@[simp] theorem State.withPending_pending (s : State) (rs : List Request) : (s.withPending rs).pending = rs := rfl
@[simp] theorem State.withPending_trace (s : State) (rs : List Request) : (s.withPending rs).trace = s.trace := rfl
@[simp] theorem State.withPending_faultMark (s : State) (rs : List Request) : (s.withPending rs).faultMark = s.faultMark := rfl
@[simp] theorem State.withPending_refusalMark (s : State) (rs : List Request) : (s.withPending rs).refusalMark = s.refusalMark := rfl

@[simp] theorem State.issue_cfg (s : State) (r : Request) : (s.issue r).cfg = s.cfg := rfl
@[simp] theorem State.issue_initDone (s : State) (r : Request) : (s.issue r).initDone = s.initDone := rfl
@[simp] theorem State.issue_ctx (s : State) (r : Request) : (s.issue r).ctx = s.ctx := rfl
@[simp] theorem State.issue_encBuf (s : State) (r : Request) : (s.issue r).encBuf = s.encBuf := rfl
@[simp] theorem State.issue_pending (s : State) (r : Request) : (s.issue r).pending = s.pending ++ [r] := rfl
@[simp] theorem State.issue_trace (s : State) (r : Request) : (s.issue r).trace = s.trace := rfl
@[simp] theorem State.issue_faultMark (s : State) (r : Request) : (s.issue r).faultMark = s.faultMark := rfl
@[simp] theorem State.issue_refusalMark (s : State) (r : Request) : (s.issue r).refusalMark = s.refusalMark := rfl

@[simp] theorem State.withFetchWord_cfg (s : State) (nbits w : Nat) : (s.withFetchWord nbits w).cfg = s.cfg := rfl
@[simp] theorem State.withFetchWord_initDone (s : State) (nbits w : Nat) : (s.withFetchWord nbits w).initDone = s.initDone := rfl
@[simp] theorem State.withFetchWord_ctx (s : State) (nbits w : Nat) : (s.withFetchWord nbits w).ctx = s.ctx := rfl
@[simp] theorem State.withFetchWord_encBuf (s : State) (nbits w : Nat) : (s.withFetchWord nbits w).encBuf = s.encBuf := rfl
@[simp] theorem State.withFetchWord_pending (s : State) (nbits w : Nat) : (s.withFetchWord nbits w).pending = tableRequest nbits w :: s.pending := rfl
@[simp] theorem State.withFetchWord_trace (s : State) (nbits w : Nat) : (s.withFetchWord nbits w).trace = s.trace := rfl
@[simp] theorem State.withFetchWord_faultMark (s : State) (nbits w : Nat) : (s.withFetchWord nbits w).faultMark = s.faultMark := rfl
@[simp] theorem State.withFetchWord_refusalMark (s : State) (nbits w : Nat) : (s.withFetchWord nbits w).refusalMark = s.refusalMark := rfl

@[simp] theorem State.resetWith_cfg (cfg : Config) : (State.resetWith cfg).cfg = cfg := rfl
@[simp] theorem State.resetWith_initDone (cfg : Config) : (State.resetWith cfg).initDone = false := rfl
@[simp] theorem State.resetWith_ctx (cfg : Config) : (State.resetWith cfg).ctx = Context.atReset := rfl
@[simp] theorem State.resetWith_encBuf (cfg : Config) : (State.resetWith cfg).encBuf = [] := rfl
@[simp] theorem State.resetWith_pending (cfg : Config) : (State.resetWith cfg).pending = [] := rfl
@[simp] theorem State.resetWith_trace (cfg : Config) : (State.resetWith cfg).trace = [] := rfl
@[simp] theorem State.resetWith_faultMark (cfg : Config) : (State.resetWith cfg).faultMark = none := rfl
@[simp] theorem State.resetWith_refusalMark (cfg : Config) : (State.resetWith cfg).refusalMark = none := rfl

@[simp] theorem Context.toDefaults_state (c : Context) : c.toDefaults.state = .waitHeader1 := rfl
@[simp] theorem Context.toDefaults_idx (c : Context) : c.toDefaults.idx = 0x0000 := rfl
@[simp] theorem Context.toDefaults_len (c : Context) : c.toDefaults.len = 0x0000 := rfl
@[simp] theorem Context.toDefaults_cmd (c : Context) : c.toDefaults.cmd = 0x00 := rfl
@[simp] theorem Context.toDefaults_acc (c : Context) : c.toDefaults.acc = 0xFFFF := rfl
@[simp] theorem Context.toDefaults_rxcrc (c : Context) : c.toDefaults.rxcrc = 0x0000 := rfl
@[simp] theorem Context.toDefaults_buf (c : Context) : c.toDefaults.buf = c.buf := rfl

@[simp] theorem resync_state (c : Context) : (resync c).state = .waitHeader1 := rfl
@[simp] theorem resync_idx (c : Context) : (resync c).idx = 0x0000 := rfl
@[simp] theorem resync_len (c : Context) : (resync c).len = 0x0000 := rfl
@[simp] theorem resync_cmd (c : Context) : (resync c).cmd = 0x00 := rfl
@[simp] theorem resync_acc (c : Context) : (resync c).acc = 0xFFFF := rfl
@[simp] theorem resync_rxcrc (c : Context) : (resync c).rxcrc = 0x0000 := rfl
@[simp] theorem resync_buf (c : Context) : (resync c).buf = c.buf := rfl

@[simp] theorem Context.atReset_state : Context.atReset.state = .waitHeader1 := rfl
@[simp] theorem Context.atReset_idx : Context.atReset.idx = 0x0000 := rfl
@[simp] theorem Context.atReset_len : Context.atReset.len = 0x0000 := rfl
@[simp] theorem Context.atReset_cmd : Context.atReset.cmd = 0x00 := rfl
@[simp] theorem Context.atReset_acc : Context.atReset.acc = 0xFFFF := rfl
@[simp] theorem Context.atReset_rxcrc : Context.atReset.rxcrc = 0x0000 := rfl
@[simp] theorem Context.atReset_buf : Context.atReset.buf = [] := rfl

/-- Adding entries twice is adding them at once. -/
theorem State.emit_emit (s : State) (es es' : List TraceEntry) : (s.emit es).emit es' = s.emit (es ++ es') := by
  simp [State.emit]

@[simp] theorem State.emit_nil (s : State) : s.emit [] = s := by simp [State.emit]

@[simp] theorem State.withCtx_self (s : State) : s.withCtx s.ctx = s := rfl

end Sys2Proof.Machine
end

