-- ==== Sys2Proof/Laws/Decoder.lean ====
section
/-! SUPPORT. Everything a decoder transition and a FEED can do, said once: what is proved about FEED cites these and
does not unfold the transition functions. -/

namespace Sys2Proof.Machine

/-- Every way a transition can answer, with its guard, one constructor per row of the transition summary of
42_decoder.md. -/
inductive Transits (cfg : Config) (c : Context) (b : Byte) : Moved → Prop
  | header1Match (hs : c.state = .waitHeader1) (hb : b = hi8 cfg.header) :
      Transits cfg c b ⟨{ c with state := .waitHeader2 }, []⟩
  | header1Stay (hs : c.state = .waitHeader1) (hb : b ≠ hi8 cfg.header) : Transits cfg c b ⟨c, []⟩
  | header2Match (hs : c.state = .waitHeader2) (hb : b = lo8 cfg.header) :
      Transits cfg c b ⟨{ c with acc := crcInit, state := .waitLength }, []⟩
  | header2Drop (hs : c.state = .waitHeader2) (hb : b ≠ lo8 cfg.header) :
      Transits cfg c b ⟨resync c, [.resync .header2Mismatch]⟩
  | lengthHigh (hs : c.state = .waitLength) :
      Transits cfg c b ⟨{ c with len := join b (lo8 c.len), state := .waitLengthLow }, []⟩
  | lengthZero (hs : c.state = .waitLengthLow) (hl : join (hi8 c.len) b = 0x0000) :
      Transits cfg c b ⟨resync c, [.resync .lengthZero]⟩
  | lengthOverflow (hs : c.state = .waitLengthLow) (hz : join (hi8 c.len) b ≠ 0x0000)
      (hl : cfg.max + 1 < (join (hi8 c.len) b).toNat) : Transits cfg c b ⟨resync c, [.resync .lengthOverflow]⟩
  | lengthOk (hs : c.state = .waitLengthLow) (hz : join (hi8 c.len) b ≠ 0x0000)
      (hl : (join (hi8 c.len) b).toNat ≤ cfg.max + 1) :
      Transits cfg c b ⟨{ c with len := join (hi8 c.len) b, state := .waitCmd }, []⟩
  | cmdEmpty (hs : c.state = .waitCmd) (hl : c.len = 1) :
      Transits cfg c b ⟨{ c with cmd := b, idx := 0x0000, state := afterPayload cfg }, []⟩
  | cmdData (hs : c.state = .waitCmd) (hl : c.len ≠ 1) :
      Transits cfg c b ⟨{ c with cmd := b, idx := 0x0000, state := .readData }, []⟩
  | dataLast (hs : c.state = .readData) (hi : c.idx.toNat < cfg.max) (hl : c.idx + 1 = c.len - 1) :
      Transits cfg c b
        ⟨{ c with buf := Memory.write c.buf c.idx.toNat b, idx := c.idx + 1, state := afterPayload cfg }, []⟩
  | dataMore (hs : c.state = .readData) (hi : c.idx.toNat < cfg.max) (hl : c.idx + 1 ≠ c.len - 1) :
      Transits cfg c b
        ⟨{ c with buf := Memory.write c.buf c.idx.toNat b, idx := c.idx + 1, state := .readData }, []⟩
  | crcHigh (hs : c.state = .waitCrc1) :
      Transits cfg c b ⟨{ c with rxcrc := join b (lo8 c.rxcrc), state := .waitCrc2 }, []⟩
  | crcDrop (hs : c.state = .waitCrc2) (he : cfg.crcEnabled = true) (ha : c.acc ≠ join (hi8 c.rxcrc) b) :
      Transits cfg c b ⟨resync c, [.resync .crcMismatch]⟩
  | crcOk (hs : c.state = .waitCrc2) (ha : cfg.crcEnabled = true → c.acc = join (hi8 c.rxcrc) b) :
      Transits cfg c b ⟨{ c with rxcrc := join (hi8 c.rxcrc) b, state := .waitEnd1 }, []⟩
  | end1Match (hs : c.state = .waitEnd1) (hb : b = hi8 cfg.trailer) :
      Transits cfg c b ⟨{ c with state := .waitEnd2 }, []⟩
  | end1Drop (hs : c.state = .waitEnd1) (hb : b ≠ hi8 cfg.trailer) :
      Transits cfg c b ⟨resync c, [.resync .trailer1Mismatch]⟩
  | end2Match (hs : c.state = .waitEnd2) (hb : b = lo8 cfg.trailer) (hi : c.idx.toNat ≤ cfg.max) :
      Transits cfg c b ⟨resync c, [.event (frameEvent c), .resync .complete]⟩
  | end2Drop (hs : c.state = .waitEnd2) (hb : b ≠ lo8 cfg.trailer) :
      Transits cfg c b ⟨resync c, [.resync .trailer2Mismatch]⟩

/-- A transition that answers does what one row of the table says. -/
theorem transition_cases {cfg : Config} {c : Context} {b : Byte} {m : Moved} (h : transition cfg c b = .ok m) :
    Transits cfg c b m := by
  unfold transition at h
  split at h <;> rename_i hs
  · unfold onWaitHeader1 moveTo at h
    split at h <;> cases h
    · exact .header1Match hs ‹_›
    · exact .header1Stay hs ‹_›
  · unfold onWaitHeader2 moveTo dropFrame at h
    split at h <;> cases h
    · exact .header2Match hs ‹_›
    · exact .header2Drop hs ‹_›
  · cases h
    exact .lengthHigh hs
  · unfold onWaitLengthLow moveTo dropFrame at h
    simp only at h
    split at h
    · cases h
      exact .lengthZero hs ‹_›
    · split at h <;> cases h
      · exact .lengthOverflow hs ‹_› ‹_›
      · exact .lengthOk hs ‹_› (Nat.le_of_not_lt ‹_›)
  · unfold onWaitCmd moveTo at h
    simp only at h
    split at h <;> cases h
    · exact .cmdEmpty hs ‹_›
    · exact .cmdData hs ‹_›
  · unfold onReadData moveTo at h
    simp only at h
    split at h
    · cases h
    · have hi := Nat.lt_of_not_le ‹_›
      split at h <;> cases h
      · exact .dataLast hs hi ‹_›
      · exact .dataMore hs hi ‹_›
  · cases h
    exact .crcHigh hs
  · unfold onWaitCrc2 moveTo dropFrame at h
    simp only at h
    split at h
    · next hc =>
      cases h
      exact .crcDrop hs hc.1 hc.2
    · next hc =>
      cases h
      exact .crcOk hs fun he => Classical.not_not.mp fun hn => hc ⟨he, hn⟩
  · unfold onWaitEnd1 moveTo dropFrame at h
    split at h <;> cases h
    · exact .end1Match hs ‹_›
    · exact .end1Drop hs ‹_›
  · unfold onWaitEnd2 dropFrame at h
    split at h
    · split at h <;> cases h
      exact .end2Match hs ‹_› (Nat.le_of_not_lt ‹_›)
    · cases h
      exact .end2Drop hs ‹_›

/-- A transition faults only at a payload index outside the buffer (60_exceptions.md R217; notes/assumptions/9.md). -/
theorem transition_fault_cases {cfg : Config} {c : Context} {b : Byte} {f : Fault}
    (h : transition cfg c b = .error f) :
    f = .internal ∧ ((c.state = .readData ∧ cfg.max ≤ c.idx.toNat) ∨ (c.state = .waitEnd2 ∧ cfg.max < c.idx.toNat)) := by
  unfold transition at h
  split at h <;> rename_i hs
  case h_6 =>
    unfold onReadData moveTo at h
    split at h
    · cases h
      exact ⟨rfl, .inl ⟨hs, ‹_›⟩⟩
    · simp only at h
      split at h <;> cases h
  case h_10 =>
    unfold onWaitEnd2 dropFrame at h
    split at h
    · split at h <;> cases h
      exact ⟨rfl, .inr ⟨hs, ‹_›⟩⟩
    · cases h
  all_goals
    simp only [onWaitHeader1, onWaitHeader2, onWaitLength, onWaitLengthLow, onWaitCmd, onWaitCrc1, onWaitCrc2, onWaitEnd1,
      moveTo, dropFrame] at h
    repeat' (split at h)
  all_goals cases h

/-- Every outcome of a FEED. -/
theorem execFeed_cases (b : Byte) (s : State) :
    (s.initDone = false ∧ execFeed b s = .fault .notInitialized) ∨
    (s.initDone = true ∧ ∃ f, transition s.cfg s.ctx b = .error f ∧ execFeed b s = .fault f) ∨
    (s.initDone = true ∧ ∃ m, transition s.cfg s.ctx b = .ok m ∧
      execFeed b s = .next ((s.withCtx (foldByte s.cfg m.ctx b)).emit m.out)) := by
  unfold execFeed
  cases hi : s.initDone
  · exact .inl ⟨rfl, rfl⟩
  · cases ht : transition s.cfg s.ctx b with
    | error f => exact .inr (.inl ⟨rfl, f, rfl, by simp⟩)
    | ok m => exact .inr (.inr ⟨rfl, m, rfl, by simp⟩)

/-- A FEED after INIT whose transition answers completes with that transition and the fold. -/
theorem execFeed_of_transition {b : Byte} {s : State} {m : Moved} (hi : s.initDone = true)
    (ht : transition s.cfg s.ctx b = .ok m) :
    execFeed b s = .next ((s.withCtx (foldByte s.cfg m.ctx b)).emit m.out) := by simp [execFeed, hi, ht]

/-- The inversion of a FEED that answers a next state. -/
theorem execFeed_next {b : Byte} {s t : State} (h : execFeed b s = .next t) :
    s.initDone = true ∧ ∃ m, Transits s.cfg s.ctx b m ∧ t = (s.withCtx (foldByte s.cfg m.ctx b)).emit m.out := by
  rcases execFeed_cases b s with ⟨_, he⟩ | ⟨_, f, _, he⟩ | ⟨hi, m, hm, he⟩
  · rw [he] at h
    cases h
  · rw [he] at h
    cases h
  · rw [he] at h
    cases h
    exact ⟨hi, m, transition_cases hm, rfl⟩

/-- The fold writes the accumulator and no other field. -/
@[simp] theorem foldByte_state (cfg : Config) (c : Context) (b : Byte) : (foldByte cfg c b).state = c.state := by
  unfold foldByte
  split <;> rfl
@[simp] theorem foldByte_idx (cfg : Config) (c : Context) (b : Byte) : (foldByte cfg c b).idx = c.idx := by
  unfold foldByte
  split <;> rfl
@[simp] theorem foldByte_len (cfg : Config) (c : Context) (b : Byte) : (foldByte cfg c b).len = c.len := by
  unfold foldByte
  split <;> rfl
@[simp] theorem foldByte_cmd (cfg : Config) (c : Context) (b : Byte) : (foldByte cfg c b).cmd = c.cmd := by
  unfold foldByte
  split <;> rfl
@[simp] theorem foldByte_rxcrc (cfg : Config) (c : Context) (b : Byte) : (foldByte cfg c b).rxcrc = c.rxcrc := by
  unfold foldByte
  split <;> rfl
@[simp] theorem foldByte_buf (cfg : Config) (c : Context) (b : Byte) : (foldByte cfg c b).buf = c.buf := by
  unfold foldByte
  split <;> rfl

/-- Where the resulting state is outside the window nothing is folded. -/
theorem foldByte_outside {cfg : Config} {c : Context} (b : Byte) (h : inWindow cfg.window c.state = false) :
    foldByte cfg c b = c := by simp [foldByte, h]

/-- Where the resulting state is inside the window the byte is folded. -/
theorem foldByte_inside {cfg : Config} {c : Context} (b : Byte) (h : inWindow cfg.window c.state = true) :
    foldByte cfg c b = { c with acc := crcStep c.acc b } := by simp [foldByte, h]

/-- A byte that causes a resync is never folded (42_decoder.md R151). -/
@[simp] theorem foldByte_resync (cfg : Config) (c : Context) (b : Byte) : foldByte cfg (resync c) b = resync c :=
  foldByte_outside b (by cases cfg.window <;> rfl)

end Sys2Proof.Machine
end

