-- ==== Sys2Proof/Laws/Memory.lean ====
section
/-! SUPPORT. The laws of a byte array: a read after a write, and the canonical form that every operation keeps. The read
laws hold of every list of cells; the canonical form is `Memory.wf`. -/

namespace Sys2Proof.Machine

@[simp] theorem Memory.read_nil (a : Nat) : Memory.read [] a = unwrittenByte := rfl

theorem Memory.read_cons (k : Nat) (v : Byte) (m : Memory) (a : Nat) :
    Memory.read ((k, v) :: m) a = if k = a then v else Memory.read m a := rfl

theorem Memory.read_erase (m : Memory) (a b : Nat) :
    Memory.read (Memory.erase m a) b = if b = a then unwrittenByte else Memory.read m b := by
  induction m with
  | nil => simp [Memory.erase]
  | cons c m ih =>
    obtain ⟨k, v⟩ := c
    simp only [Memory.erase] at ih ⊢
    by_cases hk : k = a
    · subst hk
      by_cases hb : b = k
      · subst hb
        simpa using ih
      · simp [ih, Memory.read_cons, hb, Ne.symm hb]
    · by_cases hb : b = a
      · subst hb
        simp [Memory.read_cons, ih, hk]
      · simp [Memory.read_cons, ih, hk, hb]

theorem Memory.read_place (m : Memory) (a : Nat) (v : Byte) (b : Nat) (h : Memory.read m a = unwrittenByte ∨ b ≠ a)
    (habs : ∀ c ∈ m, c.1 ≠ a) :
    Memory.read (Memory.place m a v) b = if b = a then v else Memory.read m b := by
  induction m with
  | nil => simp [Memory.place, Memory.read_cons, eq_comm]
  | cons c m ih =>
    obtain ⟨k, w⟩ := c
    have hk : k ≠ a := habs (k, w) (by simp)
    by_cases hlt : a < k
    · simp [Memory.place, hlt, Memory.read_cons, eq_comm]
    · have ih' := ih (by simpa [Memory.read_cons, hk] using h) (fun c hc => habs c (by simp [hc]))
      by_cases hb : b = a
      · subst hb
        simp [Memory.place, hlt, Memory.read_cons, hk, ih']
      · simp [Memory.place, hlt, Memory.read_cons, ih', hb]

theorem Memory.erase_absent (m : Memory) (a : Nat) : ∀ c ∈ Memory.erase m a, c.1 ≠ a := by
  simp [Memory.erase]

/-- What a write does to every index: the one law a proof cites. -/
theorem Memory.read_write (m : Memory) (a : Nat) (v : Byte) (b : Nat) :
    Memory.read (Memory.write m a v) b = if b = a then v else Memory.read m b := by
  unfold Memory.write
  split
  · next hv => simp [Memory.read_erase, hv]
  · rw [Memory.read_place _ _ _ _ (.inl (by simp [Memory.read_erase])) (Memory.erase_absent m a)]
    by_cases hb : b = a <;> simp [Memory.read_erase, hb]

@[simp] theorem Memory.read_write_same (m : Memory) (a : Nat) (v : Byte) :
    Memory.read (Memory.write m a v) a = v := by simp [Memory.read_write]

theorem Memory.read_write_other (m : Memory) {a b : Nat} (v : Byte) (h : b ≠ a) :
    Memory.read (Memory.write m a v) b = Memory.read m b := by simp [Memory.read_write, h]

/-- What storing a list of bytes does to every index. -/
theorem Memory.read_store (bs : List Byte) (m : Memory) (a b : Nat) :
    Memory.read (Memory.store m a bs) b =
      if h : a ≤ b ∧ b - a < bs.length then bs[b - a]'h.2 else Memory.read m b := by
  induction bs generalizing m a with
  | nil => simp [Memory.store]
  | cons v bs ih =>
    simp only [Memory.store, ih, Memory.read_write, List.length_cons]
    by_cases hb : b = a
    · subst hb
      simp
    · by_cases hlt : a + 1 ≤ b
      · have hba : b - a = (b - (a + 1)) + 1 := by omega
        have hle : a ≤ b := by omega
        by_cases hl : b - (a + 1) < bs.length
        · have : b - a < bs.length + 1 := by omega
          simp [hlt, hl, hle, hba]
        · have : ¬ b - a < bs.length + 1 := by omega
          simp [hlt, hl, this, hb]
      · have : ¬ a ≤ b := by omega
        simp [hlt, this, hb]

@[simp] theorem Memory.length_load (m : Memory) (n a : Nat) : (Memory.load m a n).length = n := by
  induction n generalizing a with
  | zero => rfl
  | succ n ih => simp [Memory.load, ih]

theorem Memory.getElem_load (m : Memory) (n a k : Nat) (h : k < (Memory.load m a n).length) :
    (Memory.load m a n)[k] = Memory.read m (a + k) := by
  induction n generalizing a k with
  | zero => simp at h
  | succ n ih =>
    cases k with
    | zero => simp [Memory.load]
    | succ k =>
      simp only [Memory.load, List.getElem_cons_succ]
      rw [ih]
      congr 1
      omega

/-- Reading back what was stored. -/
@[simp] theorem Memory.load_store (m : Memory) (a : Nat) (bs : List Byte) :
    Memory.load (Memory.store m a bs) a bs.length = bs := by
  refine List.ext_getElem (by simp) fun k h _ => ?_
  simp only [Memory.length_load] at h
  simp [Memory.getElem_load, Memory.read_store, h]

theorem Memory.wfFrom_mono (cap : Nat) {lo lo' : Nat} (h : lo' ≤ lo) (m : Memory)
    (hm : Memory.wfFrom cap lo m = true) : Memory.wfFrom cap lo' m = true := by
  cases m with
  | nil => rfl
  | cons c m =>
    simp only [Memory.wfFrom, Bool.and_eq_true, decide_eq_true_eq] at hm ⊢
    exact ⟨⟨h.trans hm.1.1, hm.1.2⟩, hm.2⟩

theorem Memory.wfFrom_erase (cap : Nat) (m : Memory) (lo a : Nat) (hm : Memory.wfFrom cap lo m = true) :
    Memory.wfFrom cap lo (Memory.erase m a) = true := by
  induction m generalizing lo with
  | nil => rfl
  | cons c m ih =>
    obtain ⟨k, v⟩ := c
    simp only [Memory.wfFrom, Bool.and_eq_true, decide_eq_true_eq] at hm
    have ih' := ih (k + 1) hm.2
    simp only [Memory.erase] at ih' ⊢
    by_cases hk : k = a
    · simpa [hk] using Memory.wfFrom_mono cap (by omega : lo ≤ k + 1) _ ih'
    · simp [hk, Memory.wfFrom, hm.1, ih']

theorem Memory.wfFrom_place (cap : Nat) (m : Memory) (lo a : Nat) (v : Byte) (hm : Memory.wfFrom cap lo m = true)
    (hlo : lo ≤ a) (ha : a < cap) (hv : v ≠ unwrittenByte) (habs : ∀ c ∈ m, c.1 ≠ a) :
    Memory.wfFrom cap lo (Memory.place m a v) = true := by
  induction m generalizing lo with
  | nil => simp [Memory.place, Memory.wfFrom, hlo, ha, hv]
  | cons c m ih =>
    obtain ⟨k, w⟩ := c
    have hk : k ≠ a := habs (k, w) (by simp)
    simp only [Memory.wfFrom, Bool.and_eq_true, decide_eq_true_eq] at hm
    by_cases hlt : a < k
    · simp only [Memory.place, hlt, if_true, Memory.wfFrom, Bool.and_eq_true, decide_eq_true_eq]
      exact ⟨⟨hlo, ha, hv⟩, ⟨hlt, hm.1.2⟩, hm.2⟩
    · simp only [Memory.place, hlt, if_false, Memory.wfFrom, Bool.and_eq_true, decide_eq_true_eq]
      exact ⟨hm.1, ih (k + 1) hm.2 (by omega) (fun c hc => habs c (by simp [hc]))⟩

/-- A write below the capacity keeps the canonical form. -/
theorem Memory.wf_write (cap : Nat) (m : Memory) (a : Nat) (v : Byte) (hm : Memory.wf cap m = true) (ha : a < cap) :
    Memory.wf cap (Memory.write m a v) = true := by
  unfold Memory.wf Memory.write at *
  split
  · exact Memory.wfFrom_erase cap m 0 a hm
  · next hv =>
    exact Memory.wfFrom_place cap _ 0 a v (Memory.wfFrom_erase cap m 0 a hm) (Nat.zero_le a) ha hv
      (Memory.erase_absent m a)

/-- Storing bytes below the capacity keeps the canonical form. -/
theorem Memory.wf_store (cap : Nat) (bs : List Byte) (m : Memory) (a : Nat) (hm : Memory.wf cap m = true)
    (ha : a + bs.length ≤ cap) : Memory.wf cap (Memory.store m a bs) = true := by
  induction bs generalizing m a with
  | nil => exact hm
  | cons v bs ih =>
    simp only [List.length_cons] at ha
    exact ih _ _ (Memory.wf_write cap m a v hm (by omega)) (by omega)

/-- The byte arrays right after hardware reset are in canonical form. -/
@[simp] theorem Memory.wf_nil (cap : Nat) : Memory.wf cap [] = true := rfl

/-- Below its first cell an array in canonical form reads as unwritten. -/
theorem Memory.read_below (cap : Nat) (m : Memory) (lo a : Nat) (hm : Memory.wfFrom cap lo m = true) (ha : a < lo) :
    Memory.read m a = unwrittenByte := by
  induction m generalizing lo with
  | nil => rfl
  | cons c m ih =>
    obtain ⟨k, v⟩ := c
    simp only [Memory.wfFrom, Bool.and_eq_true, decide_eq_true_eq] at hm
    have hk : k ≠ a := by omega
    simpa [Memory.read_cons, hk] using ih (k + 1) hm.2 (by omega)

theorem Memory.wfFrom_ext (cap : Nat) (m m' : Memory) (lo : Nat) (hm : Memory.wfFrom cap lo m = true)
    (hm' : Memory.wfFrom cap lo m' = true) (h : ∀ a, Memory.read m a = Memory.read m' a) : m = m' := by
  induction m generalizing m' lo with
  | nil =>
    cases m' with
    | nil => rfl
    | cons c m' =>
      obtain ⟨k, v⟩ := c
      simp only [Memory.wfFrom, Bool.and_eq_true, decide_eq_true_eq] at hm'
      exact absurd (by simpa [Memory.read_cons] using (h k).symm) hm'.1.2.2
  | cons c m ih =>
    obtain ⟨k, v⟩ := c
    simp only [Memory.wfFrom, Bool.and_eq_true, decide_eq_true_eq] at hm
    cases m' with
    | nil => exact absurd (by simpa [Memory.read_cons] using h k) hm.1.2.2
    | cons c' m' =>
      obtain ⟨k', v'⟩ := c'
      simp only [Memory.wfFrom, Bool.and_eq_true, decide_eq_true_eq] at hm'
      have hkk : k = k' := by
        rcases Nat.lt_trichotomy k k' with hlt | heq | hlt
        · have := h k
          rw [Memory.read_cons, Memory.read_cons, if_pos rfl, if_neg (by omega),
            Memory.read_below cap m' (k' + 1) k hm'.2 (by omega)] at this
          exact absurd this hm.1.2.2
        · exact heq
        · have := h k'
          rw [Memory.read_cons, Memory.read_cons, if_pos rfl, if_neg (by omega),
            Memory.read_below cap m (k + 1) k' hm.2 (by omega)] at this
          exact absurd this.symm hm'.1.2.2
      subst hkk
      have hv : v = v' := by simpa [Memory.read_cons] using h k
      subst hv
      have : m = m' := ih m' (k + 1) hm.2 hm'.2 fun a => by
        by_cases hk : k = a
        · subst hk
          rw [Memory.read_below cap m (k + 1) k hm.2 (by omega), Memory.read_below cap m' (k + 1) k hm'.2 (by omega)]
        · simpa [Memory.read_cons, hk] using h a
      rw [this]

/-- Two arrays in canonical form that read alike are equal data. -/
theorem Memory.wf_ext (cap : Nat) {m m' : Memory} (hm : Memory.wf cap m = true) (hm' : Memory.wf cap m' = true)
    (h : ∀ a, Memory.read m a = Memory.read m' a) : m = m' := Memory.wfFrom_ext cap m m' 0 hm hm' h

theorem State.resetWith_buffers_wf (cfg : Config) :
    Memory.wf cfg.max (State.resetWith cfg).ctx.buf = true ∧
      Memory.wf cfg.encCapacity (State.resetWith cfg).encBuf = true := ⟨rfl, rfl⟩

end Sys2Proof.Machine
end

