-- ==== Sys2Proof/Laws/Encoder.lean ====
section
/-! SUPPORT. The frame's length and everything an ENCODE can do, said once. -/

namespace Sys2Proof.Machine

@[simp] theorem length_coveredBytes (cmd : Byte) (payload : List Byte) :
    (coveredBytes cmd payload).length = payload.length + 3 := by
  simp [coveredBytes]
  omega

@[simp] theorem length_crcField (cfg : Config) (covered : List Byte) :
    (crcField cfg covered).length = if cfg.crcEnabled then 2 else 0 := by
  unfold crcField
  split <;> simp

/-- The number of bytes of a frame (30_encoding.md R85). -/
theorem length_frameBytes (cfg : Config) (cmd : Byte) (payload : List Byte) :
    (frameBytes cfg cmd payload).length = payload.length + if cfg.crcEnabled then 9 else 7 := by
  simp [frameBytes]
  split <;> omega

/-- Every outcome of an ENCODE: the two faults in their order (60_exceptions.md R219), and the frame in the working
buffer, in the TX event and counted in the result. -/
theorem execEncode_cases (cmd : Byte) (payload : List Byte) (s : State) :
    (s.initDone = false ∧ execEncode cmd payload s = .fault .notInitialized) ∨
    (s.initDone = true ∧ s.cfg.max < payload.length ∧ execEncode cmd payload s = .fault .encodeOverMax) ∨
    (s.initDone = true ∧ payload.length ≤ s.cfg.max ∧
      execEncode cmd payload s = .next ((s.withEncBuf (Memory.store s.encBuf 0 (frameBytes s.cfg cmd payload))).emit
        [.event (.tx (frameBytes s.cfg cmd payload)),
          .result (BitVec.ofNat 32 (frameBytes s.cfg cmd payload).length)])) := by
  unfold execEncode
  cases hi : s.initDone
  · exact .inl ⟨rfl, rfl⟩
  · by_cases hl : s.cfg.max < payload.length
    · exact .inr (.inl ⟨rfl, hl, by simp [hl]⟩)
    · exact .inr (.inr ⟨rfl, Nat.le_of_not_lt hl, by simp [hl]⟩)

end Sys2Proof.Machine
end

