-- ==== Sys2Proof/Laws/PerInstr.lean ====
section
/-! SUPPORT. What is said of every operation as syntax, one lemma per constructor: the encoder gives each operation one of
the five opcodes and a data phase of the length its word announces (30_encoding.md R97, R98). -/

namespace Sys2Proof.Laws.EncodedLength

/-- The request of a well-formed operation is as long as its word says. -/
def Statement (i : Instr) : Prop :=
  i.wellFormed = true → 4 + (Sys2Proof.encode i).data.length = operationLength (Sys2Proof.encode i).word

theorem init : Statement .init := fun _ => by decide

theorem feed (b : Byte) : Statement (.feed b) := fun _ => by
  have hb := b.isLt
  have h3 : opcode (Sys2Proof.encode (.feed b)).word ≠ 0x03 := by
    rw [Ne, opcode_eq_iff, encode_feed_word]
    simp
    omega
  have h4 : opcode (Sys2Proof.encode (.feed b)).word ≠ 0x04 := by
    rw [Ne, opcode_eq_iff, encode_feed_word]
    simp
    omega
  simp only [operationLength, dataCount, h3, h4, or_self, if_false]
  rfl

theorem encode (cmd : Byte) (payload : List Byte) : Statement (.encode cmd payload) := fun hw => by
  have hl : payload.length < 65536 := by simpa [Instr.wellFormed] using hw
  have hc := cmd.isLt
  have h3 : opcode (Sys2Proof.encode (.encode cmd payload)).word = 0x03 := by
    rw [opcode_eq_iff, encode_encode_word cmd payload hl]
    simp
    omega
  simp only [operationLength, dataCount, h3, true_or, if_true, fieldCount_toNat, encode_encode_word cmd payload hl]
  show 4 + payload.length = _
  omega

theorem crcBulk (data : List Byte) : Statement (.crcBulk data) := fun hw => by
  have hl : data.length < 65536 := by simpa [Instr.wellFormed] using hw
  have h4 : opcode (Sys2Proof.encode (.crcBulk data)).word = 0x04 := by
    rw [opcode_eq_iff, encode_crcBulk_word data hl]
    simp
    omega
  simp only [operationLength, dataCount, h4, or_true, if_true, fieldCount_toNat, encode_crcBulk_word data hl]
  show 4 + data.length = _
  omega

theorem crcUpdate (acc : Half) (b : Byte) : Statement (.crcUpdate acc b) := fun _ => by
  have hb := b.isLt
  have ha := acc.isLt
  have h3 : opcode (Sys2Proof.encode (.crcUpdate acc b)).word ≠ 0x03 := by
    rw [Ne, opcode_eq_iff, encode_crcUpdate_word]
    simp
    omega
  have h4 : opcode (Sys2Proof.encode (.crcUpdate acc b)).word ≠ 0x04 := by
    rw [Ne, opcode_eq_iff, encode_crcUpdate_word]
    simp
    omega
  simp only [operationLength, dataCount, h3, h4, or_self, if_false]
  rfl

end Sys2Proof.Laws.EncodedLength
end

