-- ==== Sys2Proof/Laws/Script.lean ====
section
/-! SUPPORT. Running a list of operations: one after the other, and in two parts. -/

namespace Sys2Proof.Machine

@[simp] theorem runOps_nil (s : State) : runOps [] s = .next s := rfl

theorem runOps_cons {i : Instr} {s t : State} (h : exec i s = .next t) (rest : List Instr) :
    runOps (i :: rest) s = runOps rest t := by simp [runOps, h]

/-- A run in two parts. -/
theorem runOps_append {is : List Instr} {s t : State} (h : runOps is s = .next t) (js : List Instr) :
    runOps (is ++ js) s = runOps js t := by
  induction is generalizing s with
  | nil =>
    cases h
    rfl
  | cons i is ih =>
    simp only [List.cons_append, runOps] at h ⊢
    split at h <;> simp_all

@[simp] theorem feeds_nil : feeds [] = [] := rfl

@[simp] theorem feeds_cons (b : Byte) (bs : List Byte) : feeds (b :: bs) = .feed b :: feeds bs := rfl

@[simp] theorem feeds_append (bs bs' : List Byte) : feeds (bs ++ bs') = feeds bs ++ feeds bs' := by simp [feeds]

end Sys2Proof.Machine
end

