-- ==== Sys2Proof/Laws/Step.lean ====
section
/-! SUPPORT. What recording an outcome and one step can do, said once: with nothing pending the state is kept, otherwise
the first pending operation is taken and its outcome recorded. -/

namespace Sys2Proof.Machine

/-- A recorded outcome is always a next state: the operation's own, or the state before it with a mark. -/
theorem record_cases (s : State) (o : Host.Outcome State Fault Refusal) :
    (∃ t, o = .next t ∧ record s o = .next t) ∨ (∃ f, o = .fault f ∧ record s o = .next (s.markFault f)) ∨
      ∃ r, o = .refused r ∧ record s o = .next (s.markRefusal r) := by
  cases o with
  | next t => exact .inl ⟨t, rfl, rfl⟩
  | fault f => exact .inr (.inl ⟨f, rfl, rfl⟩)
  | refused r => exact .inr (.inr ⟨r, rfl, rfl⟩)

/-- Every way a step can go. -/
inductive Steps (s : State) : State → Prop
  | idle (hp : s.pending = []) : Steps s s
  | malformed (r : Request) (rest : List Request) (e : EncodingRefusal) (hp : s.pending = r :: rest)
      (hd : decode r = .error e) : Steps s ((s.withPending rest).markRefusal (.encoding e))
  | runs (r : Request) (rest : List Request) (i : Instr) (t : State) (hp : s.pending = r :: rest)
      (hd : decode r = .ok i) (he : exec i (s.withPending rest) = .next t) : Steps s t
  | faults (r : Request) (rest : List Request) (i : Instr) (f : Fault) (hp : s.pending = r :: rest)
      (hd : decode r = .ok i) (he : exec i (s.withPending rest) = .fault f) :
      Steps s ((s.withPending rest).markFault f)
  | refuses (r : Request) (rest : List Request) (i : Instr) (q : Refusal) (hp : s.pending = r :: rest)
      (hd : decode r = .ok i) (he : exec i (s.withPending rest) = .refused q) :
      Steps s ((s.withPending rest).markRefusal q)

/-- The inversion of a step. -/
theorem step_cases {s t : State} (h : step s = .next t) : Steps s t := by
  unfold step at h
  split at h
  · cases h
    exact .idle ‹_›
  · next r rest hp =>
    split at h
    · next e hd =>
      cases h
      exact .malformed r rest e hp hd
    · next i hd =>
      rcases record_cases (s.withPending rest) (exec i (s.withPending rest)) with
        ⟨u, he, hr⟩ | ⟨f, he, hr⟩ | ⟨q, he, hr⟩
      · rw [hr] at h
        cases h
        exact .runs r rest i t hp hd he
      · rw [hr] at h
        cases h
        exact .faults r rest i f hp hd he
      · rw [hr] at h
        cases h
        exact .refuses r rest i q hp hd he

end Sys2Proof.Machine
end

