-- ==== Sys2Proof/Tests/Slice0.lean ====
section
/-! SUPPORT. The model's own tests: ill-formed operations refused, words written out bit by bit from 30_encoding.md R97,
single operations against 95_test_vectors.md, and for every statement with hypotheses a state and operands that meet them
all. -/

namespace Sys2Proof.Tests

open Sys2Proof Sys2Proof.Machine

/-! ## WellFormed -/

theorem test_encode_too_long_is_ill_formed (cmd : Byte) :
    (Instr.encode cmd (List.replicate 65536 0x00)).wellFormed = false := by
  simp only [Instr.wellFormed, List.length_replicate]; decide

theorem test_crc_bulk_too_long_is_ill_formed : (Instr.crcBulk (List.replicate 65536 0x00)).wellFormed = false := by
  simp only [Instr.wellFormed, List.length_replicate]; decide

theorem test_longest_data_is_well_formed :
    (Instr.encode 0xFF (List.replicate 65535 0x00)).wellFormed = true ∧
    (Instr.crcBulk (List.replicate 65535 0x00)).wellFormed = true := by
  simp only [Instr.wellFormed, List.length_replicate]; decide

/-! ## Words written out from R97's columns -/

theorem test_decode_init_word : decode ⟨0b00000001_00000000_00000000_00000000, []⟩ = .ok .init := by decide

theorem test_decode_feed_word : decode ⟨0b00000010_00000000_00000000_10101010, []⟩ = .ok (.feed 0xAA) := by decide

theorem test_decode_encode_word :
    decode ⟨0b00000011_00000001_00000000_00000010, [0x02, 0x03]⟩ = .ok (.encode 0x01 [0x02, 0x03]) := by decide

theorem test_decode_crc_bulk_word :
    decode ⟨0b00000100_00000000_00000000_00000011, [0x00, 0x01, 0x7E]⟩ = .ok (.crcBulk [0x00, 0x01, 0x7E]) := by decide

theorem test_decode_crc_update_word :
    decode ⟨0b00000101_00010010_00110100_01010110, []⟩ = .ok (.crcUpdate 0x1234 0x56) := by decide

/-- 95_test_vectors.md P6c to P6g, and the opcodes on either side of the table's five. -/
theorem test_decode_refusals :
    decode ⟨0x06000000, []⟩ = .error .reservedOpcode ∧ decode ⟨0xFFFFFFFF, []⟩ = .error .reservedOpcode ∧
    decode ⟨0x00000000, []⟩ = .error .reservedOpcode ∧ decode ⟨0x00FFFFFF, []⟩ = .error .reservedOpcode ∧
    decode ⟨0x01000001, []⟩ = .error .reservedBits ∧ decode ⟨0x02000100, []⟩ = .error .reservedBits ∧
    decode ⟨0x04000003, [0x31, 0x32]⟩ = .error .dataLength := by decide

/-- The words of the spec's vectors as `encode` lays them out (V-ENC-1, V-CRC-B0, V-CRC-S8). -/
theorem test_encode_words :
    encode (.encode 0x01 [0x02, 0x03]) = ⟨0x03010002, [0x02, 0x03]⟩ ∧ encode (.crcBulk []) = ⟨0x04000000, []⟩ ∧
    encode (.crcUpdate 0x1234 0x56) = ⟨0x05123456, []⟩ := by decide

/-! ## One operation at a time -/

/-- The next state of an outcome, none where it stopped. -/
def nextOf : Host.Outcome State Fault Refusal → Option State
  | .next t => some t
  | .fault _ => none
  | .refused _ => none

/-- A small configuration: two payload bytes, with or without the CRC field, of either window. -/
def small (crcEnabled : Bool) (window : CrcWindow) : Config :=
  { header := 0xAA55, trailer := 0x55AA, maxPayload := 2, crcEnabled := crcEnabled, window := window }

/-- The small block with the CRC field and the MATCHED window. -/
def plain : Config := small true .matched

/-- A block after INIT with this decoder context. -/
def holding (cfg : Config) (c : Context) : State := { State.resetWith cfg with initDone := true, ctx := c }

/-- A block just after INIT. -/
def ready (cfg : Config) : State := holding cfg Context.atReset

/-- A context in the middle of a frame. -/
def mid (st : DecoderState) (idx len acc rxcrc : Half) (buf : Memory) : Context :=
  { state := st, idx := idx, len := len, cmd := 0x01, acc := acc, rxcrc := rxcrc, buf := buf }

/-- V-CRC-S1, before any INIT (P6h). -/
theorem test_crc_update_result :
    (nextOf (exec (.crcUpdate 0xFFFF 0x00) State.reset)).map (·.trace) = some [.result 0x0000E1F0] := by decide

/-- V-CRC-S12: the zero pre-image for b = 01. -/
theorem test_crc_update_zero : crcStep 0x0100 0x01 = 0x0000 ∧ crcStep 0x0000 0x01 = 0x1021 := by decide

/-- V-CRC-9. -/
theorem test_crc_bulk_check_value :
    (nextOf (exec (.crcBulk [0x31, 0x32, 0x33, 0x34, 0x35, 0x36, 0x37, 0x38, 0x39]) State.reset)).map (·.trace) =
      some [.result 0x000029B1] := by decide +kernel

/-- V-CRC-B10: the LITERAL window's accumulator. -/
theorem test_crc_bulk_literal_bytes : crcBulk [0x55, 0x00, 0x03, 0x01, 0x02, 0x03, 0xEB] = 0x8DEE := by decide +kernel

/-- V-ENC-1. -/
theorem test_encode_literal_frame :
    (nextOf (exec (.encode 0x01 [0x02, 0x03]) (ready Config.literal))).map (·.trace) =
      some [.event (.tx [0xAA, 0x55, 0x00, 0x03, 0x01, 0x02, 0x03, 0xEB, 0xE1, 0x55, 0xAA]), .result 0x0000000B] := by
  decide +kernel

/-- V-ENC-4: no CRC field and no payload. -/
theorem test_encode_without_crc :
    (nextOf (exec (.encode 0x10 []) (ready { Config.literal with crcEnabled := false }))).map (·.trace) =
      some [.event (.tx [0xAA, 0x55, 0x00, 0x01, 0x10, 0x55, 0xAA]), .result 0x00000007] := by decide +kernel

/-- V-INIT-2: the partial frame is dropped, `buf[0] = 02` is still held, and no event is raised. -/
theorem test_init_in_mid_frame :
    (nextOf (exec .init (holding Config.literal (mid .readData 1 3 0xCEE3 0 [(0, 0x02)])))).map
        (fun t => (t.ctx, t.trace)) =
      some ({ state := .waitHeader1, idx := 0, len := 0, cmd := 0, acc := 0xFFFF, rxcrc := 0, buf := [(0, 0x02)] }, []) := by
  decide

/-- V-DEC-1, byte 7: the last payload byte. -/
theorem test_feed_last_payload_byte :
    (nextOf (exec (.feed 0x03) (holding Config.literal (mid .readData 1 3 0xCEE3 0 [(0, 0x02)])))).map (·.ctx) =
      some (mid .waitCrc1 2 3 0xEBE1 0 [(0, 0x02), (1, 0x03)]) := by decide +kernel

/-- V-DEC-1, byte 11: the frame is delivered. -/
theorem test_feed_last_trailer_byte :
    (nextOf (exec (.feed 0xAA) (holding Config.literal (mid .waitEnd2 2 3 0xEBE1 0xEBE1 [(0, 0x02), (1, 0x03)])))).map
        (·.trace) =
      some [.event (.frame 0x01 2 [0x02, 0x03]), .resync .complete] := by decide +kernel

/-- P6a, P6c: in a step a fault and a refusal leave only their marks. -/
theorem test_step_marks :
    nextOf (step (State.reset.withFetchWord 32 0x020000AA)) =
      some { State.reset with faultMark := some .notInitialized } ∧
    nextOf (step (State.reset.withFetchWord 32 0x06000000)) =
      some { State.reset with refusalMark := some (.encoding .reservedOpcode) } := by decide

/-- After reset the next step runs the operation that is issued. -/
theorem test_step_runs_init :
    (nextOf (step (State.reset.withFetchWord 32 0x01000000))).map (·.initDone) = some true := by decide

/-! ## A state and operands for the hypotheses of every statement -/

theorem witness_DecodeOfEncodeReturnsTheOperation :
    Instr.init.wellFormed = true ∧ (Instr.feed 0xFF).wellFormed = true ∧ (Instr.crcUpdate 0xFFFF 0xFF).wellFormed = true ∧
    (Instr.encode 0xFF (List.replicate 65535 0xFF)).wellFormed = true ∧
    (Instr.crcBulk (List.replicate 65535 0xFF)).wellFormed = true := by
  simp only [Instr.wellFormed, List.length_replicate]; decide

theorem witness_AcceptedRequestIsTheEncoding :
    decode ⟨0x03FF0001, [0x07]⟩ = .ok (.encode 0xFF [0x07]) := by decide

/-- Both bounds of both ranges of reserved opcodes, and the two opcodes next to them. -/
theorem witness_ReservedOpcodeRefusedExactly :
    decode ⟨0x00000000, []⟩ = .error .reservedOpcode ∧ decode ⟨0x00FFFFFF, []⟩ = .error .reservedOpcode ∧
    decode ⟨0x01000000, []⟩ ≠ .error .reservedOpcode ∧ decode ⟨0x05FFFFFF, []⟩ ≠ .error .reservedOpcode ∧
    decode ⟨0x06000000, []⟩ = .error .reservedOpcode ∧ decode ⟨0xFF000000, []⟩ = .error .reservedOpcode := by decide

/-- The lowest and the highest reserved bit of each row, and the defined bit next to it. -/
theorem witness_ReservedBitsRefusedExactly :
    decode ⟨0x01000001, []⟩ = .error .reservedBits ∧ decode ⟨0x01800000, []⟩ = .error .reservedBits ∧
    decode ⟨0x02000100, []⟩ = .error .reservedBits ∧ decode ⟨0x02800000, []⟩ = .error .reservedBits ∧
    decode ⟨0x02000080, []⟩ = .ok (.feed 0x80) ∧ decode ⟨0x04010000, []⟩ = .error .reservedBits ∧
    decode ⟨0x04800000, []⟩ = .error .reservedBits ∧ decode ⟨0x04008000, []⟩ = .error .dataLength := by decide

theorem witness_WrongDataLengthRefusedExactly :
    (0x03FF0001 : Word).toNat / 2 ^ 24 = 3 ∧ decode ⟨0x03FF0001, []⟩ = .error .dataLength ∧
    decode ⟨0x03FF0001, [0x07, 0x08]⟩ = .error .dataLength ∧
    (0x0400FFFF : Word).toNat / 2 ^ 24 = 4 ∧ (0x0400FFFF : Word).toNat / 2 ^ 16 % 2 ^ 8 = 0 ∧
    decode ⟨0x0400FFFF, []⟩ = .error .dataLength := by decide

theorem witness_AcceptedOperationLength :
    decode ⟨0x01000000, []⟩ = .ok .init ∧ decode ⟨0x020000FF, []⟩ = .ok (.feed 0xFF) ∧
    decode ⟨0x03100000, []⟩ = .ok (.encode 0x10 []) ∧ decode ⟨0x04000001, [0x41]⟩ = .ok (.crcBulk [0x41]) ∧
    decode ⟨0x05FFFFFF, []⟩ = .ok (.crcUpdate 0xFFFF 0xFF) := by decide

/-- The first byte's lowest bit and the last byte's highest. -/
theorem witness_SingleBitFlipChangesCrc :
    0 < ([0x41, 0x42] : List Byte).length ∧ 1 < ([0x41, 0x42] : List Byte).length ∧
    crcBulk [0x40, 0x42] ≠ crcBulk [0x41, 0x42] ∧ crcBulk [0x41, 0xC2] ≠ crcBulk [0x41, 0x42] := by decide +kernel

/-- The longest payload the small block takes, with the CRC field and without. -/
theorem witness_EncodeEmitsTheFrame :
    (ready plain).initDone = true ∧ ([0x02, 0x03] : List Byte).length ≤ (ready plain).cfg.max ∧
    (ready (small false .matched)).initDone = true ∧
    ([0x02, 0x03] : List Byte).length ≤ (ready (small false .matched)).cfg.max := by decide

theorem witness_EncodeResultCountsTheFrame :
    (nextOf (exec (.encode 0x01 [0x02, 0x03]) (ready plain))).isSome = true ∧
    (nextOf (exec (.encode 0x01 []) (ready (small false .literal)))).isSome = true := by decide +kernel

theorem witness_EncodeChangesOnlyItsWorkingBuffer :
    (holding plain (mid .readData 1 3 0xCEE3 0 [(0, 0x02)])).initDone = true ∧
    ([0x02, 0x03] : List Byte).length ≤ (holding plain (mid .readData 1 3 0xCEE3 0 [(0, 0x02)])).cfg.max := by decide

/-- One byte past the maximum, with the CRC field and without, and the request that asks for it. -/
theorem witness_EncodeOverMaxFaults :
    (ready plain).initDone = true ∧ (ready plain).cfg.max < ([0x02, 0x03, 0x04] : List Byte).length ∧
    (ready (small false .matched)).cfg.max < ([0x02, 0x03, 0x04] : List Byte).length ∧
    ((ready plain).withFetchWord 56 0x04030203010003).pending = [⟨0x03010003, [0x02, 0x03, 0x04]⟩] ∧
    decode ⟨0x03010003, [0x02, 0x03, 0x04]⟩ = .ok (.encode 0x01 [0x02, 0x03, 0x04]) ∧
    ((ready plain).withFetchWord 56 0x04030203010003).faultMark = none := by decide

theorem witness_UninitializedFeedAndEncodeFault : State.reset.initDone = false := by decide

theorem witness_EncodeIgnoresHistory :
    (ready plain).cfg = (holding plain (mid .readData 1 3 0xCEE3 0 [(0, 0x02)])).cfg ∧ (ready plain).initDone = true ∧
    (holding plain (mid .readData 1 3 0xCEE3 0 [(0, 0x02)])).initDone = true ∧
    ([0x02, 0x03] : List Byte).length ≤ (ready plain).cfg.max := by decide

/-- Both clauses: the first header byte and another byte. -/
theorem witness_WaitHeader1AwaitsFirstHeaderByte :
    (ready plain).initDone = true ∧ (ready plain).ctx.state = .waitHeader1 ∧ 0xAA = hi8 (ready plain).cfg.header ∧
    0x55 ≠ hi8 (ready plain).cfg.header := by decide

/-- With the first header byte repeated, which is a mismatch. -/
theorem witness_WaitHeader2MismatchResyncs :
    (holding plain (mid .waitHeader2 0 0 0xFFFF 0 [])).initDone = true ∧
    (holding plain (mid .waitHeader2 0 0 0xFFFF 0 [])).ctx.state = .waitHeader2 ∧
    0xAA ≠ lo8 (holding plain (mid .waitHeader2 0 0 0xFFFF 0 [])).cfg.header := by decide

/-- In both windows. -/
theorem witness_WaitHeader2MatchStartsTheFrame :
    (holding plain (mid .waitHeader2 0 0 0xFFFF 0 [])).initDone = true ∧
    (holding plain (mid .waitHeader2 0 0 0xFFFF 0 [])).ctx.state = .waitHeader2 ∧ 0x55 = lo8 plain.header ∧
    plain.window ≠ .literal ∧
    (holding (small true .literal) (mid .waitHeader2 0 0 0xFFFF 0 [])).cfg.window = .literal ∧
    0x55 = lo8 (small true .literal).header := by decide

theorem witness_WaitLengthStoresTheHighByte :
    (holding plain (mid .waitLength 0 0 0xFFFF 0 [])).initDone = true ∧
    (holding plain (mid .waitLength 0 0 0xFFFF 0 [])).ctx.state = .waitLength := by decide

/-- The three clauses where they meet, for a maximum of 2: lengths 0, 1, 3 and 4. -/
theorem witness_WaitLengthLowChecksTheLength :
    (holding plain (mid .waitLengthLow 0 0 0xE1F0 0 [])).initDone = true ∧
    (holding plain (mid .waitLengthLow 0 0 0xE1F0 0 [])).ctx.state = .waitLengthLow ∧
    ([0x00, 0x01, 0x03, 0x04].map fun b : Byte =>
      (nextOf (exec (.feed b) (holding plain (mid .waitLengthLow 0 0 0xE1F0 0 [])))).map
        fun t => (t.ctx.state, causes t.trace)) =
      [some (.waitHeader1, [.lengthZero]), some (.waitCmd, []), some (.waitCmd, []),
        some (.waitHeader1, [.lengthOverflow])] := by decide +kernel

/-- A frame with no payload, with the CRC field and without, and one with a payload. -/
theorem witness_WaitCmdStoresCmd :
    (holding plain (mid .waitCmd 0 1 0x0D2E 0 [])).initDone = true ∧
    ([holding plain (mid .waitCmd 0 1 0x0D2E 0 []), holding (small false .matched) (mid .waitCmd 0 1 0x0D2E 0 []),
      holding plain (mid .waitCmd 0 2 0x0D2E 0 [])].map fun s =>
        (s.ctx.state, (nextOf (exec (.feed 0x7E) s)).map fun t => (t.ctx.state, t.ctx.acc))) =
      [(.waitCmd, some (.waitCrc1, 0x60F4)), (.waitCmd, some (.waitEnd1, 0x0D2E)),
        (.waitCmd, some (.readData, 0x60F4))] := by decide +kernel

/-- The last index inside the buffer, the first byte of a longer payload, and the first index outside the buffer. -/
theorem witness_ReadDataStoresThePayloadByte :
    (holding plain (mid .readData 1 3 0xCEE3 0 [(0, 0x02)])).initDone = true ∧
    (holding plain (mid .readData 1 3 0xCEE3 0 [(0, 0x02)])).ctx.state = .readData ∧
    (holding plain (mid .readData 1 3 0xCEE3 0 [(0, 0x02)])).ctx.idx.toNat = plain.max - 1 ∧
    (1 : Half) + 1 = 3 - 1 ∧ (holding plain (mid .readData 0 3 0x89EE 0 [])).ctx.idx.toNat < plain.max ∧
    (0 : Half) + 1 ≠ 3 - 1 ∧ plain.max ≤ (holding plain (mid .readData 2 4 0 0 [])).ctx.idx.toNat := by decide

theorem witness_WaitCrc1StoresTheHighByte :
    (holding plain (mid .waitCrc1 2 3 0xEBE1 0 [])).initDone = true ∧
    (holding plain (mid .waitCrc1 2 3 0xEBE1 0 [])).ctx.state = .waitCrc1 ∧ plain.window ≠ .literal ∧
    (holding (small true .literal) (mid .waitCrc1 2 3 0xEBE1 0 [])).cfg.window = .literal := by decide

/-- A received CRC that differs, one that agrees, and one that differs where no CRC is checked. -/
theorem witness_WaitCrc2ComparesTheCrc :
    (holding plain (mid .waitCrc2 2 3 0xEBE1 0xEB00 [])).initDone = true ∧
    ([(plain, (0xE2 : Byte)), (plain, 0xE1), (small false .matched, 0xE2)].map fun p =>
      ((holding p.1 (mid .waitCrc2 2 3 0xEBE1 0xEB00 [])).ctx.state,
        (nextOf (exec (.feed p.2) (holding p.1 (mid .waitCrc2 2 3 0xEBE1 0xEB00 [])))).map (·.ctx.state))) =
      [(.waitCrc2, some .waitHeader1), (.waitCrc2, some .waitEnd1), (.waitCrc2, some .waitEnd1)] := by decide +kernel

theorem witness_WaitEnd1AwaitsFirstTrailerByte :
    (holding plain (mid .waitEnd1 2 3 0xEBE1 0xEBE1 [])).initDone = true ∧
    (holding plain (mid .waitEnd1 2 3 0xEBE1 0xEBE1 [])).ctx.state = .waitEnd1 ∧ 0x55 = hi8 plain.trailer ∧
    0xAA ≠ hi8 plain.trailer := by decide

theorem witness_WaitEnd2MismatchResyncs :
    (holding plain (mid .waitEnd2 2 3 0xEBE1 0xEBE1 [])).initDone = true ∧
    (holding plain (mid .waitEnd2 2 3 0xEBE1 0xEBE1 [])).ctx.state = .waitEnd2 ∧ 0x55 ≠ lo8 plain.trailer := by decide

/-- A payload that fills the buffer, and an empty one. -/
theorem witness_WaitEnd2MatchDeliversTheFrame :
    (holding plain (mid .waitEnd2 2 3 0xEBE1 0xEBE1 [(0, 0x02)])).initDone = true ∧
    (holding plain (mid .waitEnd2 2 3 0xEBE1 0xEBE1 [(0, 0x02)])).ctx.state = .waitEnd2 ∧ 0xAA = lo8 plain.trailer ∧
    (holding plain (mid .waitEnd2 2 3 0xEBE1 0xEBE1 [(0, 0x02)])).ctx.idx.toNat = plain.max ∧
    (holding plain (mid .waitEnd2 0 1 0xEF8C 0xEF8C [])).ctx.idx.toNat ≤ plain.max := by decide

/-- In ReadData, where the buffer is written, and in WaitCmd, where it is not. -/
theorem witness_FeedLeavesTheRestAlone :
    (nextOf (exec (.feed 0x03) (holding plain (mid .readData 1 3 0xCEE3 0 [(0, 0x02)])))).isSome = true ∧
    (nextOf (exec (.feed 0x03) (holding plain (mid .waitCmd 0 3 0x2D6C 0 [(0, 0x02)])))).isSome = true ∧
    (holding plain (mid .waitCmd 0 3 0x2D6C 0 [(0, 0x02)])).ctx.state ≠ .readData := by decide +kernel

/-- A FEED that delivers a frame, and one that emits nothing. -/
theorem witness_FeedEmitsAtMostOneFrame :
    (nextOf (exec (.feed 0xAA) (holding plain (mid .waitEnd2 2 3 0xEBE1 0xEBE1 [])))).map (·.trace) =
      some [.event (.frame 0x01 2 [0x00, 0x00]), .resync .complete] ∧
    (nextOf (exec (.feed 0xAA) (ready plain))).map (·.trace) = some [] := by decide +kernel

/-- A resync by an error, and the one by completion. -/
theorem witness_EveryResyncLeavesTheDefaults :
    (nextOf (exec (.feed 0x00) (holding plain (mid .waitEnd1 2 3 0xEBE1 0xEBE1 [])))).map (·.trace) =
      some ((holding plain (mid .waitEnd1 2 3 0xEBE1 0xEBE1 [])).trace ++ [.resync .trailer1Mismatch]) ∧
    (nextOf (exec (.feed 0xAA) (holding plain (mid .waitEnd2 0 1 0xEF8C 0xEF8C [])))).map (·.trace) =
      some ((holding plain (mid .waitEnd2 0 1 0xEF8C 0xEF8C [])).trace ++
        [.event (.frame 0x01 0 []), .resync .complete]) := by decide +kernel

/-- The invariant's ReadData case at the last index, which is the case nearest to INTERNAL. -/
theorem witness_FeedAlwaysCompletesAfterInit :
    (holding plain (mid .readData 1 3 0xCEE3 0 [(0, 0x02)])).Inv ∧
    (holding plain (mid .readData 1 3 0xCEE3 0 [(0, 0x02)])).initDone = true :=
  ⟨⟨fun _ => by simp only [holding, mid, Context.Inv]; decide, by decide, by decide⟩, rfl⟩

theorem witness_InternalFaultUnreachable : (holding plain (mid .waitEnd2 2 3 0xEBE1 0xEBE1 [(0, 0x02)])).Inv :=
  ⟨fun _ => by simp only [holding, mid, Context.Inv]; decide, by decide, by decide⟩

/-- A state in mid payload and one before INIT, each with an operation to run. -/
theorem witness_StepKeepsTheInvariant :
    ((holding plain (mid .readData 1 3 0xCEE3 0 [(0, 0x02)])).withFetchWord 32 0x02000003).Inv ∧
    (nextOf (step ((holding plain (mid .readData 1 3 0xCEE3 0 [(0, 0x02)])).withFetchWord 32 0x02000003))).isSome = true ∧
    (State.reset.withFetchWord 32 0x01000000).Inv ∧
    (nextOf (step (State.reset.withFetchWord 32 0x01000000))).isSome = true :=
  ⟨⟨fun _ => by simp only [State.withFetchWord, State.withPending, holding, mid, Context.Inv]; decide, by decide,
      by decide⟩, by decide +kernel,
    ⟨(fun h => nomatch h), by decide, by decide⟩, by decide⟩

/-- The three operations that leave the context, each completing in mid payload. -/
theorem witness_OnlyFeedAndInitChangeTheContext :
    ([.encode 0x01 [0x02], .crcBulk [0x41], .crcUpdate 0xFFFF 0x00].map fun i : Instr =>
      (decide (i = .init), (nextOf (exec i (holding plain (mid .readData 1 3 0xCEE3 0 [(0, 0x02)])))).isSome)) =
      [(false, true), (false, true), (false, true)] ∧
    ∀ b : Byte, Instr.encode 0x01 [0x02] ≠ .feed b ∧ Instr.crcBulk [0x41] ≠ .feed b ∧
      Instr.crcUpdate 0xFFFF 0x00 ≠ .feed b := by
  refine ⟨by decide +kernel, fun b => ?_⟩
  simp

theorem witness_StepNeverWritesTheConfiguration :
    (nextOf (step ((ready plain).withFetchWord 32 0x020000AA))).isSome = true ∧
    (nextOf (step State.reset)).isSome = true := by decide

/-- INIT before and after an INIT, and another operation before and after it. -/
theorem witness_InitDoneChangesOnlyByInit :
    ([(Instr.init, State.reset), (.init, ready plain), (.crcBulk [], State.reset), (.feed 0xAA, ready plain)].map fun p =>
      (nextOf (exec p.1 p.2)).map (·.initDone)) = [some true, some true, some false, some true] := by decide

/-- Marks set, and INIT, a faulting and a malformed operation to run. -/
theorem witness_MarksAreNeverCleared :
    ([0x01000000, 0x020000AA, 0x00000000].map fun w =>
      (nextOf (step ({ State.reset with
          faultMark := some .encodeOverMax
          refusalMark := some (.encoding .dataLength) }.withFetchWord 32 w))).map
        fun t => (t.faultMark, t.refusalMark)) =
      [some (some .encodeOverMax, some (.encoding .dataLength)), some (some .encodeOverMax, some (.encoding .dataLength)),
        some (some .encodeOverMax, some (.encoding .dataLength))] := by decide

theorem witness_StepOnlyExtendsTheTrace :
    (nextOf (step ({ ready plain with trace := [.result 0x00000007] }.withFetchWord 32 0x05FFFF00))).map (·.trace) =
      some [.result 0x00000007, .result 0x0000E1F0] := by decide

/-- Two states of one block whose traces and marks differ, and an operation that completes and one that faults. -/
theorem witness_TraceAndMarksChangeNoOutcome :
    (ready plain).SameBlock { ready plain with trace := [.resync .complete], faultMark := some .notInitialized } ∧
    (nextOf (exec (.feed 0xAA) (ready plain))).isSome = true ∧
    exec (.encode 0x01 [0x02, 0x03, 0x04]) (ready plain) = .fault .encodeOverMax :=
  ⟨⟨rfl, rfl, rfl, rfl⟩, by decide, rfl⟩

theorem witness_ExecNeverRefuses :
    exec (.feed 0xAA) State.reset = .fault .notInitialized ∧
    exec (.encode 0x01 [0x02, 0x03, 0x04]) (ready plain) = .fault .encodeOverMax := ⟨rfl, rfl⟩

/-- Each of the five operations completes, FEED with a frame and without. -/
theorem witness_OutputsOfEachOperation :
    ([(.init, State.reset), (.feed 0xAA, ready plain),
      (.feed 0xAA, holding plain (mid .waitEnd2 0 1 0xEF8C 0xEF8C [])), (.encode 0x01 [0x02], ready plain),
      (.crcBulk [0x41], State.reset), (.crcUpdate 0xFFFF 0x00, State.reset)].map fun p : Instr × State =>
      (nextOf (exec p.1 p.2)).map fun t => (hostView t.trace).length) =
      [some 0, some 0, some 1, some 2, some 1, some 1] := by decide +kernel

theorem witness_StepRunsTheDecodedOperation :
    ({ ready plain with pending := [⟨0x020000AA, []⟩] }).pending = ⟨0x020000AA, []⟩ :: [] ∧
    decode ⟨0x020000AA, []⟩ = .ok (.feed 0xAA) ∧
    (nextOf (exec (.feed 0xAA) { ready plain with pending := [] })).isSome = true := by decide

/-- With no mark and with one that is set. -/
theorem witness_StepRecordsAFault :
    ({ State.reset with pending := [⟨0x020000AA, []⟩] }).pending = ⟨0x020000AA, []⟩ :: [] ∧
    decode ⟨0x020000AA, []⟩ = .ok (.feed 0xAA) ∧
    exec (.feed 0xAA) { State.reset with pending := [] } = .fault .notInitialized ∧
    exec (.feed 0xAA) { State.reset with pending := [], faultMark := some .encodeOverMax } = .fault .notInitialized :=
  ⟨rfl, by decide, rfl, rfl⟩

/-- One request of each refusal reason, before INIT too. -/
theorem witness_StepRefusesAMalformedRequest :
    ({ State.reset with pending := [⟨0x06000000, []⟩] }).pending = ⟨0x06000000, []⟩ :: [] ∧
    decode ⟨0x06000000, []⟩ = .error .reservedOpcode ∧ decode ⟨0x01000001, []⟩ = .error .reservedBits ∧
    decode ⟨0x04000003, [0x31, 0x32]⟩ = .error .dataLength := by decide

theorem witness_IdleStepHoldsAllState : (holding plain (mid .readData 1 3 0xCEE3 0 [(0, 0x02)])).pending = [] := by decide

/-- The ends of the legal ranges, and the first value past each. -/
theorem witness_BuildRefusesIllegalConfigurations :
    (65535 < 65536 ∧ 65535 < 65536 ∧ 65534 ≤ 65534) ∧ ¬(65536 < 65536 ∧ 0 < 65536 ∧ 0 ≤ 65534) ∧
    ¬(0 < 65536 ∧ 65536 < 65536 ∧ 0 ≤ 65534) ∧ ¬(0 < 65536 ∧ 0 < 65536 ∧ 65535 ≤ 65534) := by decide

/-- The longest payload, and a block without the CRC field. -/
theorem witness_LoopbackDeliversThePayload :
    (ready plain).Scanning ∧ (ready plain).cfg.window = .matched ∧
    ([0xAA, 0x55] : List Byte).length ≤ (ready plain).cfg.max ∧ (ready (small false .matched)).Scanning ∧
    (ready (small false .matched)).cfg.window = .matched :=
  ⟨⟨rfl, rfl⟩, rfl, by decide, ⟨rfl, rfl⟩, rfl⟩

theorem witness_MatchedAccumulatorCoversTheEncoderBytes :
    (ready plain).Scanning ∧ (ready plain).cfg.window = .matched ∧ (ready plain).cfg.crcEnabled = true ∧
    ([0x02, 0x03] : List Byte).length ≤ (ready plain).cfg.max := ⟨⟨rfl, rfl⟩, rfl, rfl, by decide⟩

theorem witness_LiteralAccumulatorCoversTwoBytesMore :
    (ready (small true .literal)).Scanning ∧ (ready (small true .literal)).cfg.window = .literal ∧
    (ready (small true .literal)).cfg.crcEnabled = true ∧
    ([0x02, 0x03] : List Byte).length ≤ (ready (small true .literal)).cfg.max := ⟨⟨rfl, rfl⟩, rfl, rfl, by decide⟩

theorem witness_NoiseLeavesTheDecoderScanning :
    (ready plain).Scanning ∧ ∀ b ∈ ([0x00, 0x13, 0x55, 0xFF] : List Byte), b ≠ hi8 (ready plain).cfg.header :=
  ⟨⟨rfl, rfl⟩, by decide⟩

/-- The first length past the maximum, and the largest. -/
theorem witness_OverlongLengthIsRejected :
    (ready plain).Scanning ∧ (ready plain).cfg.max + 1 < (0x0004 : Half).toNat ∧
    (ready plain).cfg.max + 1 < (0xFFFF : Half).toNat := ⟨⟨rfl, rfl⟩, by decide, by decide⟩

/-- The cmd byte alone, and the last byte of the longest body. -/
theorem witness_FlippedBodyBitIsDropped :
    (ready plain).Scanning ∧ (ready plain).cfg.window = .matched ∧ (ready plain).cfg.crcEnabled = true ∧
    0 < ([0x01] : List Byte).length ∧ ([0x01] : List Byte).length ≤ (ready plain).cfg.max + 1 ∧
    2 < ([0x01, 0x02, 0x03] : List Byte).length ∧ ([0x01, 0x02, 0x03] : List Byte).length ≤ (ready plain).cfg.max + 1 :=
  ⟨⟨rfl, rfl⟩, rfl, rfl, by decide, by decide, by decide, by decide⟩

/-- 95_test_vectors.md P4: the literal sentinels, and the middle of the literal frame G. -/
theorem witness_LossCascadeContinues :
    (holding Config.literal (mid .waitHeader2 0 0 0xFFFF 0 [])).initDone = true ∧
    (holding Config.literal (mid .waitHeader2 0 0 0xFFFF 0 [])).ctx.state = .waitHeader2 ∧
    lo8 Config.literal.trailer = hi8 Config.literal.header ∧ hi8 Config.literal.header ≠ lo8 Config.literal.header ∧
    ∀ b ∈ ([0x55, 0x00, 0x03, 0x01, 0x02, 0x03, 0xEB, 0xE1, 0x55] : List Byte), b ≠ hi8 Config.literal.header := by
  decide

end Sys2Proof.Tests
end

section
/-! PROOFS. The decoder context: what a resync leaves of it (10_state.md R44), and which operations leave it alone
(10_state.md R38). -/

namespace Sys2Proof.Machine

/-! ## The arms of `exec` -/

@[simp] theorem exec_feed (b : Byte) (s : State) : exec (.feed b) s = execFeed b s := rfl

@[simp] theorem exec_encode (cmd : Byte) (payload : List Byte) (s : State) :
    exec (.encode cmd payload) s = execEncode cmd payload s := rfl

@[simp] theorem exec_crcBulk (data : List Byte) (s : State) : exec (.crcBulk data) s = execCrcBulk data s := rfl

@[simp] theorem exec_crcUpdate (acc : Half) (b : Byte) (s : State) :
    exec (.crcUpdate acc b) s = execCrcUpdate acc b s := rfl

/-! ## Resyncs -/

/-- The labels listed by `causes` are exactly the resync entries of the trace. -/
theorem mem_causes {c : Cause} {es : List TraceEntry} : c ∈ causes es ↔ .resync c ∈ es := by
  rw [causes, List.mem_filterMap]
  constructor
  · rintro ⟨e, he, hc⟩
    cases e with
    | resync c' =>
      cases hc
      exact he
    | event | result => cases hc
  · exact fun h => ⟨_, h, rfl⟩

/-- A transition adds no resync label, or it adds one and its context is the resynchronized one (10_state.md R44). -/
theorem Transits.causes_out {cfg : Config} {c : Context} {b : Byte} {m : Moved} (h : Transits cfg c b m) :
    causes m.out = [] ∨ (m.ctx = resync c ∧ ∃ cause, causes m.out = [cause]) := by
  cases h with
  | header2Drop | lengthZero | lengthOverflow | crcDrop | end1Drop | end2Match | end2Drop => exact .inr ⟨rfl, _, rfl⟩
  | header1Match | header1Stay | header2Match | lengthHigh | lengthOk | cmdEmpty | cmdData | dataLast | dataMore
  | crcHigh | crcOk | end1Match => exact .inl rfl

/-- What a completing FEED adds to the trace are the entries of its transition, and its context is that of the transition
after the fold. -/
theorem execFeed_out {b : Byte} {s t : State} {es : List TraceEntry} (h : execFeed b s = .next t)
    (htr : t.trace = s.trace ++ es) :
    ∃ m, Transits s.cfg s.ctx b m ∧ es = m.out ∧ t.ctx = foldByte s.cfg m.ctx b := by
  obtain ⟨-, m, hm, rfl⟩ := execFeed_next h
  exact ⟨m, hm, (List.append_cancel_left htr).symm, rfl⟩

/-- A FEED adds no resync label, or it adds one and leaves the resynchronized context. -/
theorem execFeed_causes {b : Byte} {s t : State} {es : List TraceEntry} (h : execFeed b s = .next t)
    (htr : t.trace = s.trace ++ es) : causes es = [] ∨ (t.ctx = resync s.ctx ∧ ∃ cause, causes es = [cause]) := by
  obtain ⟨m, hm, rfl, hctx⟩ := execFeed_out h htr
  rcases hm.causes_out with hnone | ⟨hres, hone⟩
  · exact .inl hnone
  · exact .inr ⟨by rw [hctx, hres, foldByte_resync], hone⟩

/-! ## Operations that leave the context alone -/

/-- An ENCODE that completes leaves the decoder context alone (10_state.md R38). -/
theorem execEncode_ctx {cmd : Byte} {payload : List Byte} {s t : State} (h : execEncode cmd payload s = .next t) :
    t.ctx = s.ctx := by
  rcases execEncode_cases cmd payload s with ⟨_, he⟩ | ⟨_, _, he⟩ | ⟨_, _, he⟩ <;> rw [he] at h <;> cases h
  rfl

theorem execCrcBulk_ctx {data : List Byte} {s t : State} (h : execCrcBulk data s = .next t) : t.ctx = s.ctx := by
  cases h
  rfl

theorem execCrcUpdate_ctx {acc : Half} {b : Byte} {s t : State} (h : execCrcUpdate acc b s = .next t) :
    t.ctx = s.ctx := by
  cases h
  rfl

end Sys2Proof.Machine

namespace Sys2Proof.Proofs

open Sys2Proof Sys2Proof.Machine

/-- Settles O35: a FEED that adds a resync label adds that one only and leaves `resync s.ctx`, which is the context the
statement writes out. -/
theorem everyResyncLeavesTheDefaults : Obligations.EveryResyncLeavesTheDefaults := by
  intro b s t es h htr
  rw [exec_feed] at h
  rcases execFeed_causes h htr with hnone | ⟨hctx, cause, hone⟩
  · refine ⟨by simp [hnone], fun c hc => ?_⟩
    have hmem : c ∈ causes es := mem_causes.mpr hc
    simp [hnone] at hmem
  · exact ⟨by simp [hone], fun _ _ => hctx⟩

/-- Settles O41: by cases on the operation; ENCODE changes only its working buffer and the trace, the two CRC operations
only the trace. -/
theorem onlyFeedAndInitChangeTheContext : Obligations.OnlyFeedAndInitChangeTheContext := by
  intro i s t hinit hfeed h
  cases i with
  | init => exact absurd rfl hinit
  | feed b => exact absurd rfl (hfeed b)
  | encode =>
    rw [exec_encode] at h
    exact execEncode_ctx h
  | crcBulk =>
    rw [exec_crcBulk] at h
    exact execCrcBulk_ctx h
  | crcUpdate =>
    rw [exec_crcUpdate] at h
    exact execCrcUpdate_ctx h

end Sys2Proof.Proofs
end

section
/-! PROOFS. The frame encoder: the one way an ENCODE completes after INIT (41_frame_encoder.md R131), and its frame field
by field (30_encoding.md R80). -/

namespace Sys2Proof.Machine

/-- After INIT and within `MAX_PAYLOAD` neither fault of an ENCODE can occur: it completes with the frame. -/
theorem execEncode_completes (cmd : Byte) {payload : List Byte} {s : State} (hinit : s.initDone = true)
    (hlen : payload.length ≤ s.cfg.max) :
    execEncode cmd payload s = .next ((s.withEncBuf (Memory.store s.encBuf 0 (frameBytes s.cfg cmd payload))).emit
      [.event (.tx (frameBytes s.cfg cmd payload)),
        .result (BitVec.ofNat 32 (frameBytes s.cfg cmd payload).length)]) := by
  rcases execEncode_cases cmd payload s with ⟨hno, -⟩ | ⟨-, hover, -⟩ | ⟨-, -, hnext⟩
  · exact absurd (hinit.symm.trans hno) (by decide)
  · exact absurd hlen (Nat.not_le_of_lt hover)
  · exact hnext

/-- The bytes under the CRC: the length field `1 + n` with its high byte first, `cmd`, the payload. -/
theorem coveredBytes_fields (cmd : Byte) (payload : List Byte) :
    coveredBytes cmd payload =
      [hi8 (BitVec.ofNat 16 (payload.length + 1)), lo8 (BitVec.ofNat 16 (payload.length + 1)), cmd] ++ payload := rfl

/-- The frame with each two-byte field written out high byte first, and its CRC as the fold of `crcStep` from 0xFFFF. -/
theorem frameBytes_fields (cfg : Config) (cmd : Byte) (payload : List Byte) :
    frameBytes cfg cmd payload =
      [hi8 cfg.header, lo8 cfg.header] ++ coveredBytes cmd payload ++
        (if cfg.crcEnabled then
          [hi8 ((coveredBytes cmd payload).foldl crcStep 0xFFFF), lo8 ((coveredBytes cmd payload).foldl crcStep 0xFFFF)]
        else []) ++ [hi8 cfg.trailer, lo8 cfg.trailer] := rfl

end Sys2Proof.Machine

namespace Sys2Proof.Proofs

open Sys2Proof Sys2Proof.Machine

/-- Settles O13: the ENCODE completes, its TX event and its result are read from `frameBytes`, and `frameBytes` is the
statement's frame once its fields are written out. -/
theorem encodeEmitsTheFrame : Obligations.EncodeEmitsTheFrame := by
  intro cmd payload s hinit hlen L covered c frame
  have hframe : frameBytes s.cfg cmd payload = frame := by
    rw [frameBytes_fields, coveredBytes_fields]
  refine ⟨_, (exec_encode cmd payload s).trans (execEncode_completes cmd hinit hlen), ?_⟩
  rw [State.emit_trace, State.withEncBuf_trace, hframe]

end Sys2Proof.Proofs
end

section
/-! PROOFS. The transitions of a FEED (42_decoder.md R150 to R175): each row of the transition table is taken whenever
its guard holds, so a FEED after INIT is settled by naming its row; which states the CRC windows hold says what the
second phase folds. -/

namespace Sys2Proof.Machine

/-! ## Phase 1: the row whose guard holds is the one taken -/

/-- The converse of `transition_cases`: a row of the table whose guard holds is what the transition answers. -/
theorem Transits.transition_eq {cfg : Config} {c : Context} {b : Byte} {m : Moved} (h : Transits cfg c b m) :
    transition cfg c b = .ok m := by
  cases h with
  | header1Match hs hb | header1Stay hs hb => simp [transition, hs, onWaitHeader1, moveTo, hb]
  | header2Match hs hb | header2Drop hs hb => simp [transition, hs, onWaitHeader2, moveTo, dropFrame, hb]
  | lengthHigh hs => simp [transition, hs, onWaitLength, moveTo]
  | lengthZero hs hl => simp only [transition, hs, onWaitLengthLow, dropFrame, hl, if_true, resync, Context.toDefaults]
  | lengthOverflow hs hz hl =>
    simp only [transition, hs, onWaitLengthLow, dropFrame, hz, hl, if_true, if_false, resync, Context.toDefaults]
  | lengthOk hs hz hl => simp only [transition, hs, onWaitLengthLow, moveTo, hz, Nat.not_lt_of_le hl, if_false]
  | cmdEmpty hs hl | cmdData hs hl => simp only [transition, hs, onWaitCmd, moveTo, hl, if_true, if_false]
  | dataLast hs hi hl | dataMore hs hi hl =>
    simp only [transition, hs, onReadData, moveTo, Nat.not_le_of_lt hi, hl, if_true, if_false]
  | crcHigh hs => simp [transition, hs, onWaitCrc1, moveTo]
  | crcDrop hs he ha => simp [transition, hs, onWaitCrc2, dropFrame, he, ha, resync, Context.toDefaults]
  | crcOk hs ha =>
    have hc : ¬(cfg.crcEnabled = true ∧ c.acc ≠ join (hi8 c.rxcrc) b) := fun hd => hd.2 (ha hd.1)
    simp only [transition, hs, onWaitCrc2, moveTo, hc, if_false]
  | end1Match hs hb | end1Drop hs hb => simp [transition, hs, onWaitEnd1, moveTo, dropFrame, hb]
  | end2Match hs hb hi => simp [transition, hs, onWaitEnd2, hb, Nat.not_lt_of_le hi]
  | end2Drop hs hb => simp [transition, hs, onWaitEnd2, dropFrame, hb]

/-- In ReadData an index outside the buffer is the internal fault (60_exceptions.md R217). -/
theorem transition_readData_fault {cfg : Config} {c : Context} (b : Byte) (hs : c.state = .readData)
    (hi : cfg.max ≤ c.idx.toNat) : transition cfg c b = .error .internal := by
  simp [transition, hs, onReadData, hi]

/-! ## Phase 2: the states the CRC windows hold -/

@[simp] theorem inWindow_waitHeader1 (w : CrcWindow) : inWindow w .waitHeader1 = false := by cases w <;> rfl
@[simp] theorem inWindow_waitHeader2 (w : CrcWindow) : inWindow w .waitHeader2 = false := by cases w <;> rfl
@[simp] theorem inWindow_waitLength (w : CrcWindow) : inWindow w .waitLength = decide (w = .literal) := by
  cases w <;> rfl
@[simp] theorem inWindow_waitLengthLow (w : CrcWindow) : inWindow w .waitLengthLow = true := by cases w <;> rfl
@[simp] theorem inWindow_waitCmd (w : CrcWindow) : inWindow w .waitCmd = true := by cases w <;> rfl
@[simp] theorem inWindow_readData (w : CrcWindow) : inWindow w .readData = true := by cases w <;> rfl
@[simp] theorem inWindow_waitCrc1 (w : CrcWindow) : inWindow w .waitCrc1 = true := by cases w <;> rfl
@[simp] theorem inWindow_waitCrc2 (w : CrcWindow) : inWindow w .waitCrc2 = decide (w = .literal) := by cases w <;> rfl
@[simp] theorem inWindow_waitEnd1 (w : CrcWindow) : inWindow w .waitEnd1 = false := by cases w <;> rfl
@[simp] theorem inWindow_waitEnd2 (w : CrcWindow) : inWindow w .waitEnd2 = false := by cases w <;> rfl

/-- The byte that ends the payload is folded exactly when a CRC field follows (42_decoder.md R159). -/
@[simp] theorem inWindow_afterPayload (w : CrcWindow) (cfg : Config) :
    inWindow w (afterPayload cfg) = cfg.crcEnabled := by
  cases h : cfg.crcEnabled <;> simp [afterPayload, h]

/-- The fold as one equation, inside and outside the window. -/
theorem foldByte_eq (cfg : Config) (c : Context) (b : Byte) :
    foldByte cfg c b = { c with acc := if inWindow cfg.window c.state then crcStep c.acc b else c.acc } := by
  cases hw : inWindow cfg.window c.state
  · simp [foldByte_outside b hw]
  · simp [foldByte_inside b hw]

/-! ## Both phases -/

/-- A FEED that takes a row without output: the row's context, folded when its state is in the window. -/
theorem execFeed_moves {b : Byte} {s : State} {c : Context} (hi : s.initDone = true)
    (h : Transits s.cfg s.ctx b ⟨c, []⟩) :
    execFeed b s =
      .next { s with
        ctx := { c with acc := if inWindow s.cfg.window c.state then crcStep c.acc b else c.acc } } := by
  rw [execFeed_of_transition hi h.transition_eq, State.emit_nil, foldByte_eq]
  rfl

/-- A FEED that takes a row ending in a resync: the context resynchronized and the row's output; nothing is folded. -/
theorem execFeed_resyncs {b : Byte} {s : State} {es : List TraceEntry} (hi : s.initDone = true)
    (h : Transits s.cfg s.ctx b ⟨resync s.ctx, es⟩) :
    execFeed b s = .next { s with ctx := resync s.ctx, trace := s.trace ++ es } := by
  rw [execFeed_of_transition hi h.transition_eq, foldByte_resync]
  rfl

/-- A FEED after INIT whose transition faults is that fault. -/
theorem execFeed_faults {b : Byte} {s : State} {f : Fault} (hi : s.initDone = true)
    (h : transition s.cfg s.ctx b = .error f) : execFeed b s = .fault f := by simp [execFeed, hi, h]

/-! ## The payload bytes of a FRAME event -/

/-- Loading from index 0 reads the indices below `n` in order. -/
theorem Memory.load_eq_map_range (m : Memory) (n : Nat) :
    Memory.load m 0 n = (List.range n).map fun k => Memory.read m k :=
  List.ext_getElem (by simp) fun k h _ => by simp [Memory.getElem_load]

end Sys2Proof.Machine

namespace Sys2Proof.Proofs

open Sys2Proof Sys2Proof.Machine

/-- Settles O20: the two rows of WaitHeader1; neither WaitHeader1 nor WaitHeader2 is in a window. -/
theorem waitHeader1AwaitsFirstHeaderByte : Obligations.WaitHeader1AwaitsFirstHeaderByte := by
  intro b s hi hs
  rw [exec_feed]
  by_cases hb : b = hi8 s.cfg.header
  · rw [if_pos hb, execFeed_moves hi (.header1Match hs hb)]
    simp
  · have hw : inWindow s.cfg.window s.ctx.state = false := by simp [hs]
    rw [if_neg hb, execFeed_moves hi (.header1Stay hs hb), hw]
    rfl

/-- Settles O21: the dropping row of WaitHeader2. -/
theorem waitHeader2MismatchResyncs : Obligations.WaitHeader2MismatchResyncs :=
  fun _ _ hi hs hb => execFeed_resyncs hi (.header2Drop hs hb)

/-- Settles O22: the matching row of WaitHeader2; only the LITERAL window holds WaitLength. -/
theorem waitHeader2MatchStartsTheFrame : Obligations.WaitHeader2MatchStartsTheFrame := by
  intro b s hi hs hb
  simp [execFeed_moves hi (.header2Match hs hb), crcInit]

/-- Settles O23: the one row of WaitLength; both windows hold WaitLengthLow. -/
theorem waitLengthStoresTheHighByte : Obligations.WaitLengthStoresTheHighByte := by
  intro b s hi hs
  simp [execFeed_moves hi (.lengthHigh hs)]

/-- Settles O24: the three rows of WaitLengthLow, one per branch of the statement; both windows hold WaitCmd. -/
theorem waitLengthLowChecksTheLength : Obligations.WaitLengthLowChecksTheLength := by
  intro b s hi hs L dropped
  rw [exec_feed]
  by_cases hz : L = 0x0000
  · rw [execFeed_resyncs hi (.lengthZero hs hz), if_pos hz]
    rfl
  rw [if_neg hz]
  by_cases hl : s.cfg.max + 1 < L.toNat
  · rw [execFeed_resyncs hi (.lengthOverflow hs hz hl), if_pos hl]
    rfl
  · rw [execFeed_moves hi (.lengthOk hs hz (Nat.le_of_not_lt hl)), if_neg hl]
    simp [L]

/-- Settles O25: the two rows of WaitCmd; the empty payload's row ends in `afterPayload`. -/
theorem waitCmdStoresCmd : Obligations.WaitCmdStoresCmd := by
  intro b s hi hs
  rw [exec_feed]
  by_cases hl : s.ctx.len = 1
  · rw [execFeed_moves hi (.cmdEmpty hs hl), inWindow_afterPayload]
    simp only [hl, true_and, if_true, afterPayload, ← Bool.not_eq_true, ite_not]
  · rw [execFeed_moves hi (.cmdData hs hl), inWindow_readData]
    simp only [hl, false_and, if_true, if_false]

/-- Settles O26: outside the buffer the fault, inside it the two rows of ReadData, both with the same written buffer. -/
theorem readDataStoresThePayloadByte : Obligations.ReadDataStoresThePayloadByte := by
  intro b s hi hs
  refine ⟨fun hidx => execFeed_faults hi (transition_readData_fault b hs hidx), fun hidx =>
    ⟨Memory.write s.ctx.buf s.ctx.idx.toNat b, ?_, Memory.read_write_same .., fun a ha =>
      Memory.read_write_other _ b ha⟩⟩
  rw [exec_feed]
  by_cases hl : s.ctx.idx + 1 = s.ctx.len - 1
  · rw [execFeed_moves hi (.dataLast hs hidx hl), inWindow_afterPayload]
    simp only [hl, true_and, if_true, afterPayload, ← Bool.not_eq_true, ite_not]
  · rw [execFeed_moves hi (.dataMore hs hidx hl), inWindow_readData]
    simp only [hl, false_and, if_true, if_false]

/-- Settles O27: the one row of WaitCrc1; only the LITERAL window holds WaitCrc2. -/
theorem waitCrc1StoresTheHighByte : Obligations.WaitCrc1StoresTheHighByte := by
  intro b s hi hs
  simp [execFeed_moves hi (.crcHigh hs)]

/-- Settles O28: the two rows of WaitCrc2; no window holds WaitEnd1. -/
theorem waitCrc2ComparesTheCrc : Obligations.WaitCrc2ComparesTheCrc := by
  intro b s hi hs
  rw [exec_feed]
  by_cases hd : s.cfg.crcEnabled = true ∧ s.ctx.acc ≠ join (hi8 s.ctx.rxcrc) b
  · rw [execFeed_resyncs hi (.crcDrop hs hd.1 hd.2), if_pos hd]
    rfl
  · have heq : s.cfg.crcEnabled = true → s.ctx.acc = join (hi8 s.ctx.rxcrc) b := by simpa using hd
    rw [execFeed_moves hi (.crcOk hs heq), if_neg hd]
    simp

/-- Settles O29: the two rows of WaitEnd1; no window holds WaitEnd2. -/
theorem waitEnd1AwaitsFirstTrailerByte : Obligations.WaitEnd1AwaitsFirstTrailerByte := by
  intro b s hi hs
  rw [exec_feed]
  by_cases hb : b = hi8 s.cfg.trailer
  · rw [execFeed_moves hi (.end1Match hs hb), if_pos hb]
    simp
  · rw [execFeed_resyncs hi (.end1Drop hs hb), if_neg hb]
    rfl

/-- Settles O30: the dropping row of WaitEnd2. -/
theorem waitEnd2MismatchResyncs : Obligations.WaitEnd2MismatchResyncs :=
  fun _ _ hi hs hb => execFeed_resyncs hi (.end2Drop hs hb)

/-- Settles O31: the completing row of WaitEnd2, whose event is built from the context before the resync. -/
theorem waitEnd2MatchDeliversTheFrame : Obligations.WaitEnd2MatchDeliversTheFrame := by
  intro b s hi hs hb hidx
  rw [exec_feed, execFeed_resyncs hi (.end2Match hs hb hidx), frameEvent, Memory.load_eq_map_range]
  rfl

end Sys2Proof.Proofs
end

section
/-! PROOFS. Initialization (43_initialization.md): what the context defaults are, and the one way INIT completes. -/

namespace Sys2Proof.Machine

@[simp] theorem exec_init (s : State) : exec .init s = execInit s := rfl

/-- The values of 10_state.md R43, and the payload buffer kept. -/
theorem Context.toDefaults_eq (c : Context) :
    c.toDefaults =
      { state := .waitHeader1, idx := 0x0000, len := 0x0000, cmd := 0x00, acc := 0xFFFF, rxcrc := 0x0000,
        buf := c.buf } := rfl

/-- INIT has no fault and no precondition: its two writes, with every other field of the state named as unchanged. -/
theorem execInit_eq (s : State) : execInit s = .next { s with initDone := true, ctx := s.ctx.toDefaults } := rfl

end Sys2Proof.Machine

namespace Sys2Proof.Proofs

open Sys2Proof Sys2Proof.Machine

/-- Settles O19: INIT completes with the default context and `init_done` set, and the default context is the one the
statement writes out. -/
theorem initWritesTheDefaults : Obligations.InitWritesTheDefaults := by
  intro s
  rw [exec_init, execInit_eq, Context.toDefaults_eq]

end Sys2Proof.Proofs
end

section
/-! PROOFS. The model faults and refusals that no decoding is part of (60_exceptions.md): NOT_INITIALIZED before the first
INIT (R216), and the refusal of an illegal configuration (R222). -/

namespace Sys2Proof.Machine

/-! ## Before the first INIT -/

theorem execFeed_uninitialized (b : Byte) {s : State} (hinit : s.initDone = false) :
    execFeed b s = .fault .notInitialized := by
  rcases execFeed_cases b s with ⟨-, hfault⟩ | ⟨hdone, -⟩ | ⟨hdone, -⟩
  · exact hfault
  · exact absurd (hinit.symm.trans hdone) (by decide)
  · exact absurd (hinit.symm.trans hdone) (by decide)

/-- NOT_INITIALIZED comes before ENCODE_OVER_MAX (60_exceptions.md R219), so the payload may have any length. -/
theorem execEncode_uninitialized (cmd : Byte) (payload : List Byte) {s : State} (hinit : s.initDone = false) :
    execEncode cmd payload s = .fault .notInitialized := by
  rcases execEncode_cases cmd payload s with ⟨-, hfault⟩ | ⟨hdone, -⟩ | ⟨hdone, -⟩
  · exact hfault
  · exact absurd (hinit.symm.trans hdone) (by decide)
  · exact absurd (hinit.symm.trans hdone) (by decide)

/-! ## Building a block -/

/-- Inside the legal ranges of 00_scope.md R9 a block is built from the two sentinels as 16-bit values. -/
theorem buildBlock_legal {header trailer maxPayload : Nat} (crcEnabled : Bool) (window : CrcWindow)
    (hheader : header < 65536) (htrailer : trailer < 65536) (hmax : maxPayload < 65535) :
    buildBlock header trailer maxPayload crcEnabled window =
      .next (State.resetWith
        ⟨BitVec.ofNat 16 header, BitVec.ofNat 16 trailer, ⟨maxPayload, hmax⟩, crcEnabled, window⟩) :=
  dif_pos ⟨hheader, htrailer, hmax⟩

theorem buildBlock_illegal {header trailer maxPayload : Nat} (crcEnabled : Bool) (window : CrcWindow)
    (hout : ¬(header < 65536 ∧ trailer < 65536 ∧ maxPayload < 65535)) :
    buildBlock header trailer maxPayload crcEnabled window = .refused .illegalConfiguration :=
  dif_neg hout

end Sys2Proof.Machine

namespace Sys2Proof.Proofs

open Sys2Proof Sys2Proof.Machine

/-- Settles O17: of the outcomes of a FEED and of an ENCODE only NOT_INITIALIZED has `init_done` false. -/
theorem uninitializedFeedAndEncodeFault : Obligations.UninitializedFeedAndEncodeFault := by
  intro s hinit
  refine ⟨fun b => ?_, fun cmd payload => ?_⟩
  · rw [exec_feed, execFeed_uninitialized b hinit]
  · rw [exec_encode, execEncode_uninitialized cmd payload hinit]

/-- Settles O53: the two branches of `buildBlock`; a sentinel below 65536 survives being read as a 16-bit value, so the
block's configuration holds exactly the numbers given. -/
theorem buildRefusesIllegalConfigurations : Obligations.BuildRefusesIllegalConfigurations := by
  intro header trailer maxPayload crcEnabled window
  constructor
  · rintro ⟨hheader, htrailer, hmax⟩
    exact ⟨_, buildBlock_legal crcEnabled window hheader htrailer (Nat.lt_succ_of_le hmax),
      Nat.mod_eq_of_lt hheader, Nat.mod_eq_of_lt htrailer, rfl, rfl, rfl⟩
  · intro hout
    exact buildBlock_illegal crcEnabled window fun ⟨hheader, htrailer, hmax⟩ =>
      hout ⟨hheader, htrailer, Nat.le_of_lt_succ hmax⟩

end Sys2Proof.Proofs
end

section
/-! PROOFS. Operation words (30_encoding.md R97 to R99): what each answer of `accept` says of the request, the row of the
table that an opcode selects, and the agreement of the decoder with the encoder. -/

namespace Sys2Proof

/-! ## The must-be-zero bits of a row -/

/-- No bit of the `n` bits of `w` from bit `k` upwards is 1 exactly when the number they spell is 0. -/
theorem and_field_eq_zero_iff (w : Word) (k n : Nat) (hkn : k + n ≤ 32) :
    w &&& BitVec.ofNat 32 ((2 ^ n - 1) <<< k) = 0 ↔ w.toNat / 2 ^ k % 2 ^ n = 0 := by
  have hmask : (2 ^ n - 1) <<< k < 2 ^ 32 := by
    rw [Nat.shiftLeft_eq]
    calc (2 ^ n - 1) * 2 ^ k < 2 ^ n * 2 ^ k :=
          Nat.mul_lt_mul_of_pos_right (Nat.sub_lt (Nat.two_pow_pos n) Nat.one_pos) (Nat.two_pow_pos k)
      _ = 2 ^ (k + n) := by rw [Nat.add_comm, Nat.pow_add]
      _ ≤ 2 ^ 32 := Nat.pow_le_pow_right (by decide) hkn
  have hfield : w.toNat &&& (2 ^ n - 1) <<< k = (w.toNat / 2 ^ k % 2 ^ n) <<< k := by
    rw [← Nat.and_two_pow_sub_one_eq_mod, ← Nat.shiftRight_eq_div_pow, Nat.shiftLeft_and_distrib]
    apply Nat.eq_of_testBit_eq
    intro i
    simp only [Nat.testBit_and, Nat.testBit_shiftLeft, Nat.testBit_shiftRight]
    by_cases hi : k ≤ i
    · simp [hi]
    · simp [hi]
  rw [← BitVec.toNat_inj, BitVec.toNat_and, BitVec.toNat_ofNat, Nat.mod_eq_of_lt hmask, hfield]
  simp [Nat.shiftLeft_eq]

/-- INIT's reserved bits, [23:0]. -/
theorem init_zeros_iff (w : Word) : w &&& 0x00FFFFFF = 0 ↔ w.toNat % 2 ^ 24 = 0 := by
  simpa using and_field_eq_zero_iff w 0 24 (by decide)

/-- FEED's reserved bits, [23:8]. -/
theorem feed_zeros_iff (w : Word) : w &&& 0x00FFFF00 = 0 ↔ w.toNat / 2 ^ 8 % 2 ^ 16 = 0 :=
  and_field_eq_zero_iff w 8 16 (by decide)

/-- CRC_BULK's reserved bits, [23:16]. -/
theorem crcBulk_zeros_iff (w : Word) : w &&& 0x00FF0000 = 0 ↔ w.toNat / 2 ^ 16 % 2 ^ 8 = 0 :=
  and_field_eq_zero_iff w 16 8 (by decide)

/-- ENCODE and CRC_UPDATE have no reserved bits. -/
theorem no_zeros (w : Word) : w &&& 0 = 0 := BitVec.and_zero

/-! ## The answers of `accept` -/

theorem accept_eq_ok_iff {zeros : Word} {n : Nat} {r : Request} {i j : Instr} :
    accept zeros n r i = .ok j ↔ r.word &&& zeros = 0 ∧ r.data.length = n ∧ i = j := by
  rcases accept_cases zeros n r i with ⟨hz, h⟩ | ⟨-, hn, h⟩ | ⟨hz, hn, h⟩ <;> rw [h]
  · exact iff_of_false nofun fun hok => hz hok.1
  · exact iff_of_false nofun fun hok => hn hok.2.1
  · simp only [hz, hn, true_and, Except.ok.injEq]

theorem accept_eq_reservedBits_iff {zeros : Word} {n : Nat} {r : Request} {i : Instr} :
    accept zeros n r i = .error .reservedBits ↔ r.word &&& zeros ≠ 0 := by
  rcases accept_cases zeros n r i with ⟨hz, h⟩ | ⟨hz, -, h⟩ | ⟨hz, -, h⟩ <;> rw [h]
  · exact iff_of_true rfl hz
  · exact iff_of_false nofun (not_not_intro hz)
  · exact iff_of_false nofun (not_not_intro hz)

theorem accept_eq_dataLength_iff {zeros : Word} {n : Nat} {r : Request} {i : Instr} :
    accept zeros n r i = .error .dataLength ↔ r.word &&& zeros = 0 ∧ r.data.length ≠ n := by
  rcases accept_cases zeros n r i with ⟨hz, h⟩ | ⟨hz, hn, h⟩ | ⟨-, hn, h⟩ <;> rw [h]
  · exact iff_of_false nofun fun hok => hz hok.1
  · exact iff_of_true rfl ⟨hz, hn⟩
  · exact iff_of_false nofun fun hok => hok.2 hn

theorem accept_ne_reservedOpcode {zeros : Word} {n : Nat} {r : Request} {i : Instr} :
    accept zeros n r i ≠ .error .reservedOpcode := by
  rcases accept_cases zeros n r i with ⟨-, h⟩ | ⟨-, -, h⟩ | ⟨-, -, h⟩ <;> rw [h] <;> nofun

/-! ## The row an opcode selects -/

theorem decode_feed_row {r : Request} (h : r.word.toNat / 2 ^ 24 = 2) :
    decode r = accept 0x00FFFF00 0 r (.feed (fieldByte r.word)) := by
  simp only [decode, opcode_eq_iff, h]
  rfl

theorem decode_encode_row {r : Request} (h : r.word.toNat / 2 ^ 24 = 3) :
    decode r = accept 0 (fieldCount r.word).toNat r (.encode (fieldCmd r.word) r.data) := by
  simp only [decode, opcode_eq_iff, h]
  rfl

theorem decode_crcBulk_row {r : Request} (h : r.word.toNat / 2 ^ 24 = 4) :
    decode r = accept 0x00FF0000 (fieldCount r.word).toNat r (.crcBulk r.data) := by
  simp only [decode, opcode_eq_iff, h]
  rfl

theorem decode_crcUpdate_row {r : Request} (h : r.word.toNat / 2 ^ 24 = 5) :
    decode r = accept 0 0 r (.crcUpdate (fieldAcc r.word) (fieldByte r.word)) := by
  simp only [decode, opcode_eq_iff, h]
  rfl

/-! ## Decoding what was encoded, one lemma per operation -/

theorem decode_encode_init : decode (encode .init) = .ok .init := by decide

theorem decode_encode_feed (b : Byte) : decode (encode (.feed b)) = .ok (.feed b) := by
  have hw := encode_feed_word b
  have hb := b.isLt
  rw [decode_feed_row (by omega), accept_eq_ok_iff, feed_zeros_iff]
  refine ⟨by omega, rfl, congrArg Instr.feed (BitVec.eq_of_toNat_eq ?_)⟩
  rw [fieldByte_toNat]
  omega

theorem decode_encode_encode (cmd : Byte) {payload : List Byte} (hl : payload.length < 65536) :
    decode (encode (.encode cmd payload)) = .ok (.encode cmd payload) := by
  have hw := encode_encode_word cmd payload hl
  have hc := cmd.isLt
  have hcmd : fieldCmd (encode (.encode cmd payload)).word = cmd := by
    apply BitVec.eq_of_toNat_eq
    rw [fieldCmd_toNat]
    omega
  rw [decode_encode_row (by omega), accept_eq_ok_iff, fieldCount_toNat, hcmd]
  refine ⟨no_zeros _, ?_, rfl⟩
  show payload.length = _
  omega

theorem decode_encode_crcBulk {data : List Byte} (hl : data.length < 65536) :
    decode (encode (.crcBulk data)) = .ok (.crcBulk data) := by
  have hw := encode_crcBulk_word data hl
  rw [decode_crcBulk_row (by omega), accept_eq_ok_iff, fieldCount_toNat, crcBulk_zeros_iff]
  refine ⟨by omega, ?_, rfl⟩
  show data.length = _
  omega

theorem decode_encode_crcUpdate (acc : Half) (b : Byte) :
    decode (encode (.crcUpdate acc b)) = .ok (.crcUpdate acc b) := by
  have hw := encode_crcUpdate_word acc b
  have ha := acc.isLt
  have hb := b.isLt
  have hacc : fieldAcc (encode (.crcUpdate acc b)).word = acc := by
    apply BitVec.eq_of_toNat_eq
    rw [fieldAcc_toNat]
    omega
  have hbyte : fieldByte (encode (.crcUpdate acc b)).word = b := by
    apply BitVec.eq_of_toNat_eq
    rw [fieldByte_toNat]
    omega
  rw [decode_crcUpdate_row (by omega), accept_eq_ok_iff, hacc, hbyte]
  exact ⟨no_zeros _, rfl, rfl⟩

/-! ## What an accepted request is -/

/-- Every way a request is accepted, as numbers: its opcode, its zero bits, its data phase, and the operation. -/
inductive Accepts (r : Request) : Instr → Prop
  | init (hop : r.word.toNat / 2 ^ 24 = 1) (hz : r.word.toNat % 2 ^ 24 = 0) (hd : r.data.length = 0) : Accepts r .init
  | feed (hop : r.word.toNat / 2 ^ 24 = 2) (hz : r.word.toNat / 2 ^ 8 % 2 ^ 16 = 0) (hd : r.data.length = 0) :
      Accepts r (.feed (fieldByte r.word))
  | encode (hop : r.word.toNat / 2 ^ 24 = 3) (hd : r.data.length = r.word.toNat % 2 ^ 16) :
      Accepts r (.encode (fieldCmd r.word) r.data)
  | crcBulk (hop : r.word.toNat / 2 ^ 24 = 4) (hz : r.word.toNat / 2 ^ 16 % 2 ^ 8 = 0)
      (hd : r.data.length = r.word.toNat % 2 ^ 16) : Accepts r (.crcBulk r.data)
  | crcUpdate (hop : r.word.toNat / 2 ^ 24 = 5) (hd : r.data.length = 0) :
      Accepts r (.crcUpdate (fieldAcc r.word) (fieldByte r.word))

/-- The inversion of the decoder. -/
theorem decode_ok_cases {r : Request} {i : Instr} (h : decode r = .ok i) : Accepts r i := by
  rcases decode_cases r with ⟨hop, hd⟩ | ⟨hop, hd⟩ | ⟨hop, hd⟩ | ⟨hop, hd⟩ | ⟨hop, hd⟩ | ⟨-, hd⟩ <;> rw [hd] at h
  · obtain ⟨hz, hn, rfl⟩ := accept_eq_ok_iff.mp h
    exact .init hop ((init_zeros_iff _).mp hz) hn
  · obtain ⟨hz, hn, rfl⟩ := accept_eq_ok_iff.mp h
    exact .feed hop ((feed_zeros_iff _).mp hz) hn
  · obtain ⟨-, hn, rfl⟩ := accept_eq_ok_iff.mp h
    exact .encode hop (hn.trans (fieldCount_toNat _))
  · obtain ⟨hz, hn, rfl⟩ := accept_eq_ok_iff.mp h
    exact .crcBulk hop ((crcBulk_zeros_iff _).mp hz) (hn.trans (fieldCount_toNat _))
  · obtain ⟨-, hn, rfl⟩ := accept_eq_ok_iff.mp h
    exact .crcUpdate hop hn
  · cases h

/-- Two requests with the same word, as numbers, and the same data phase are the same. -/
theorem Request.ext_toNat {r r' : Request} (hw : r.word.toNat = r'.word.toNat) (hd : r.data = r'.data) : r = r' := by
  cases r
  cases r'
  cases hd
  cases BitVec.eq_of_toNat_eq hw
  rfl

/-- The encoding of an accepted operation is the request itself. -/
theorem Accepts.encode_eq {r : Request} {i : Instr} (h : Accepts r i) : Sys2Proof.encode i = r := by
  have hlt := r.word.isLt
  cases h with
  | init hop hz hd =>
    refine Request.ext_toNat ?_ (List.length_eq_zero_iff.mp hd).symm
    rw [encode_init_word]
    omega
  | feed hop hz hd =>
    refine Request.ext_toNat ?_ (List.length_eq_zero_iff.mp hd).symm
    rw [encode_feed_word, fieldByte_toNat]
    omega
  | encode hop hd =>
    refine Request.ext_toNat ?_ rfl
    rw [encode_encode_word _ _ (by omega), fieldCmd_toNat]
    omega
  | crcBulk hop hz hd =>
    refine Request.ext_toNat ?_ rfl
    rw [encode_crcBulk_word _ (by omega)]
    omega
  | crcUpdate hop hd =>
    refine Request.ext_toNat ?_ (List.length_eq_zero_iff.mp hd).symm
    rw [encode_crcUpdate_word, fieldAcc_toNat, fieldByte_toNat]
    omega

/-- An accepted operation can be spelled: its count came from a 16-bit field. -/
theorem Accepts.wellFormed {r : Request} {i : Instr} (h : Accepts r i) : i.wellFormed = true := by
  cases h with
  | init | feed | crcUpdate => rfl
  | encode hop hd | crcBulk hop hz hd =>
    rw [Instr.wellFormed, decide_eq_true_iff]
    omega

end Sys2Proof

namespace Sys2Proof.Proofs

open Sys2Proof Sys2Proof.Machine

/-- Settles O1: by cases on the operation; each field read back from the encoded word, as a number, is the operand. -/
theorem decodeOfEncodeReturnsTheOperation : Obligations.DecodeOfEncodeReturnsTheOperation := by
  intro i hwf
  cases i with
  | init => exact decode_encode_init
  | feed b => exact decode_encode_feed b
  | encode cmd payload => exact decode_encode_encode cmd (of_decide_eq_true hwf)
  | crcBulk data => exact decode_encode_crcBulk (of_decide_eq_true hwf)
  | crcUpdate acc b => exact decode_encode_crcUpdate acc b

/-- Settles O2: the rows under which a request is accepted fix every bit of its word. -/
theorem acceptedRequestIsTheEncoding : Obligations.AcceptedRequestIsTheEncoding :=
  fun _ _ h => ⟨(decode_ok_cases h).encode_eq, (decode_ok_cases h).wellFormed⟩

/-- Settles O3: only the last answer of the decoder is RESERVED_OPCODE, and its opcodes are those no row has. -/
theorem reservedOpcodeRefusedExactly : Obligations.ReservedOpcodeRefusedExactly := by
  intro r
  rcases decode_cases r with ⟨hop, hd⟩ | ⟨hop, hd⟩ | ⟨hop, hd⟩ | ⟨hop, hd⟩ | ⟨hop, hd⟩ | ⟨hop, hd⟩
  case inr.inr.inr.inr.inr => simp only [hd, hop]
  all_goals
    rw [hd, iff_false_left accept_ne_reservedOpcode]
    omega

/-- Settles O4: in each row RESERVED_BITS means that the field under the row's zeros is not 0; ENCODE and CRC_UPDATE have
no zeros. -/
theorem reservedBitsRefusedExactly : Obligations.ReservedBitsRefusedExactly := by
  intro r
  rcases decode_cases r with ⟨hop, hd⟩ | ⟨hop, hd⟩ | ⟨hop, hd⟩ | ⟨hop, hd⟩ | ⟨hop, hd⟩ | ⟨hop, hd⟩ <;> rw [hd]
  · rw [accept_eq_reservedBits_iff, Ne, init_zeros_iff]
    omega
  · rw [accept_eq_reservedBits_iff, Ne, feed_zeros_iff]
    omega
  · rw [accept_eq_reservedBits_iff, iff_false_left (not_not_intro (no_zeros _))]
    omega
  · rw [accept_eq_reservedBits_iff, Ne, crcBulk_zeros_iff]
    omega
  · rw [accept_eq_reservedBits_iff, iff_false_left (not_not_intro (no_zeros _))]
    omega
  · rw [iff_false_left nofun]
    omega

/-- Settles O5: in the rows of ENCODE and CRC_BULK, with no reserved bit, only the data phase is left to refuse. -/
theorem wrongDataLengthRefusedExactly : Obligations.WrongDataLengthRefusedExactly := by
  rintro r (hop | ⟨hop, hz⟩)
  · rw [decode_encode_row hop, accept_eq_dataLength_iff, fieldCount_toNat]
    exact and_iff_right (no_zeros _)
  · rw [decode_crcBulk_row hop, accept_eq_dataLength_iff, fieldCount_toNat]
    exact and_iff_right ((crcBulk_zeros_iff _).mpr hz)

/-- Settles O6: the data length of each row under which a request is accepted. -/
theorem acceptedOperationLength : Obligations.AcceptedOperationLength := by
  intro r i h
  cases decode_ok_cases h with
  | init _ _ hd | feed _ _ hd | encode _ hd | crcBulk _ _ hd | crcUpdate _ hd => simp only [hd]

/-- Settles O7: the decoder is run on the six words. -/
theorem wordsOfTheSpecDecode : Obligations.WordsOfTheSpecDecode := by
  unfold Obligations.WordsOfTheSpecDecode
  decide

end Sys2Proof.Proofs
end

section
/-! PROOFS. The CRC16-CCITT engine (40_crc_engine.md): one stage loses no bit, so `crc_step` is injective in the accumulator
and in the byte, and the CRC of a sequence is injective in each byte. -/

namespace Sys2Proof.Machine

/-! ## One stage -/

/-- The polynomial's lowest bit is 1, so bit 0 after a stage is the bit that left bit 15. -/
theorem crcStage_bit0 (a : Half) : (crcStage a).getLsbD 0 = a.getLsbD 15 := by
  unfold crcStage
  cases ha : a.getLsbD 15 <;> simp [crcPoly]

/-- No two values have the same next stage: bit 0 tells which branch was taken, and both branches shift the other
fifteen bits up. -/
theorem crcStage_injective : Function.Injective crcStage := by
  intro a a' h
  have htop : a.getLsbD 15 = a'.getLsbD 15 := by rw [← crcStage_bit0, ← crcStage_bit0, h]
  have hshift : a <<< 1 = a' <<< 1 := by
    unfold crcStage at h
    rw [htop] at h
    split at h
    · exact (BitVec.xor_left_inj _).mp h
    · exact h
  apply BitVec.eq_of_getElem_eq
  intro i hi
  by_cases h15 : i = 15
  · subst h15
    exact htop
  · have hbit := congrArg (BitVec.getLsbD · (i + 1)) hshift
    simpa [show i + 1 < 16 by omega] using hbit

theorem crcStages_injective (k : Nat) : Function.Injective (crcStages k) := by
  induction k with
  | zero => exact Function.injective_id
  | succ k ih => exact ih.comp crcStage_injective

/-! ## One byte -/

/-- A byte is found in the top byte of its shifted value. -/
theorem zext16_shift_injective {b b' : Byte} (h : zext16 b <<< 8 = zext16 b' <<< 8) : b = b' := by
  have hn := congrArg BitVec.toNat h
  have hb := b.isLt
  have hb' := b'.isLt
  simp [zext16, Nat.shiftLeft_eq] at hn
  apply BitVec.eq_of_toNat_eq
  omega

theorem crcStep_acc_injective (b : Byte) : Function.Injective fun acc : Half => crcStep acc b :=
  fun _ _ h => (BitVec.xor_left_inj _).mp (crcStages_injective 8 h)

theorem crcStep_byte_injective (acc : Half) : Function.Injective fun b : Byte => crcStep acc b :=
  fun _ _ h => zext16_shift_injective ((BitVec.xor_right_inj _).mp (crcStages_injective 8 h))

/-- The accumulator that cancels the byte is a pre-image of 0. -/
theorem crcStep_zero_preimage (b : Byte) : crcStep (zext16 b <<< 8) b = 0x0000 := by
  rw [crcStep, BitVec.xor_self]
  decide

/-! ## A sequence of bytes -/

theorem foldl_crcStep_injective (bytes : List Byte) : Function.Injective fun acc : Half => bytes.foldl crcStep acc := by
  induction bytes with
  | nil => exact Function.injective_id
  | cons b bytes ih => exact ih.comp (crcStep_acc_injective b)

/-- Two bytes in the same place of a sequence give the same CRC only if they are equal. -/
theorem crcBulk_middle_injective (front back : List Byte) {b b' : Byte}
    (h : crcBulk (front ++ b :: back) = crcBulk (front ++ b' :: back)) : b = b' := by
  simp only [crcBulk, List.foldl_append, List.foldl_cons] at h
  exact crcStep_byte_injective _ (foldl_crcStep_injective back h)

/-- Replacing one byte of a sequence by another changes its CRC. -/
theorem crcBulk_set_ne {data : List Byte} {k : Nat} (hk : k < data.length) {b : Byte} (hb : b ≠ data[k]) :
    crcBulk (data.set k b) ≠ crcBulk data := by
  intro h
  refine hb (crcBulk_middle_injective (data.take k) (data.drop (k + 1)) ?_)
  rwa [List.getElem_cons_drop, List.take_append_drop, ← List.set_eq_take_cons_drop b hk]

/-- A flipped bit is another byte. -/
theorem xor_bit_ne (b : Byte) (bit : Fin 8) : b ^^^ (0x01#8 <<< bit.val) ≠ b := by
  have hbit : ∀ i : Fin 8, 0x01#8 <<< i.val ≠ 0 := by decide
  intro h
  apply hbit bit
  simpa using h

/-- The CRC of the bytes so far is the accumulator to continue with (40_crc_engine.md R114). -/
theorem crcBulk_append (front back : List Byte) : crcBulk (front ++ back) = back.foldl crcStep (crcBulk front) :=
  List.foldl_append

end Sys2Proof.Machine

namespace Sys2Proof.Proofs

open Sys2Proof Sys2Proof.Machine

/-- Settles O8: the result is the operation's own; a second pre-image of 0 would contradict that `crcStep` is injective
in the accumulator. -/
theorem crcUpdateReturnsOneStep : Obligations.CrcUpdateReturnsOneStep :=
  fun _ b _ => ⟨rfl, fun h => crcStep_acc_injective b (h.trans (crcStep_zero_preimage b).symm), fun h =>
    h ▸ crcStep_zero_preimage b⟩

/-- Settles O9: CRC_BULK has one outcome, with the fold as its result. -/
theorem crcBulkReturnsTheFold : Obligations.CrcBulkReturnsTheFold := by
  intro data s
  rw [exec_crcBulk]
  rfl

/-- Settles O10: CRC_UPDATE continues from the CRC of the bytes before it, by `crcBulk_append`. -/
theorem incrementalAgreesWithBulk : Obligations.IncrementalAgreesWithBulk := by
  refine ⟨crcBulk_append, fun data b s => ⟨crcBulk data, crcStep (crcBulk data) b, rfl, rfl, ?_⟩⟩
  rw [exec_crcBulk, execCrcBulk, crcBulk_append]
  rfl

/-- Settles O11: an injective map of a finite type to itself is bijective. -/
theorem crcStepBijectiveInAccumulator : Obligations.CrcStepBijectiveInAccumulator := by
  intro b
  have : Finite Half := Finite.of_injective BitVec.toFin fun _ _ => BitVec.eq_of_toFin_eq
  exact Finite.injective_iff_bijective.mp (crcStep_acc_injective b)

/-- Settles O12: the flipped byte differs, and a CRC is injective in each byte. -/
theorem singleBitFlipChangesCrc : Obligations.SingleBitFlipChangesCrc :=
  fun _ _ hk bit => crcBulk_set_ne hk (xor_bit_ne _ bit)

end Sys2Proof.Proofs
end

section
/-! PROOFS. The outcomes of an ENCODE after INIT (41_frame_encoder.md R131 to R135): what a completing one leaves in the
working buffer and returns, and the fault of one over the maximum. -/

namespace Sys2Proof.Machine

/-- After INIT a payload over the maximum is ENCODE_OVER_MAX. -/
theorem execEncode_overMax (cmd : Byte) {payload : List Byte} {s : State} (hinit : s.initDone = true)
    (hover : s.cfg.max < payload.length) : execEncode cmd payload s = .fault .encodeOverMax := by
  rcases execEncode_cases cmd payload s with ⟨hno, -⟩ | ⟨-, -, hfault⟩ | ⟨-, hlen, -⟩
  · exact absurd (hinit.symm.trans hno) (by decide)
  · exact hfault
  · exact absurd hover (Nat.not_lt_of_le hlen)

/-- The inversion of an ENCODE that answers a next state. -/
theorem execEncode_next {cmd : Byte} {payload : List Byte} {s t : State} (h : execEncode cmd payload s = .next t) :
    s.initDone = true ∧ payload.length ≤ s.cfg.max ∧
      t = (s.withEncBuf (Memory.store s.encBuf 0 (frameBytes s.cfg cmd payload))).emit
        [.event (.tx (frameBytes s.cfg cmd payload)), .result (BitVec.ofNat 32 (frameBytes s.cfg cmd payload).length)] := by
  rcases execEncode_cases cmd payload s with ⟨-, he⟩ | ⟨-, -, he⟩ | ⟨hinit, hlen, he⟩ <;> rw [he] at h <;> cases h
  exact ⟨hinit, hlen, rfl⟩

/-- A frame with a legal payload fits the working buffer (00_scope.md R11). -/
theorem length_frameBytes_le {cfg : Config} (cmd : Byte) {payload : List Byte} (hlen : payload.length ≤ cfg.max) :
    (frameBytes cfg cmd payload).length ≤ cfg.encCapacity := by
  rw [length_frameBytes, Config.encCapacity]
  split <;> omega

/-- The working buffer is shorter than what a 32-bit result can count. -/
theorem encCapacity_lt (cfg : Config) : cfg.encCapacity < 2 ^ 32 := by
  have := cfg.maxPayload.isLt
  rw [Config.encCapacity, Config.max]
  omega

/-- Stored from index 0, the bytes are read back at their own indices. -/
theorem Memory.read_store_zero (m : Memory) (bytes : List Byte) {k : Nat} (hk : k < bytes.length) :
    Memory.read (Memory.store m 0 bytes) k = bytes[k] := by
  simp [Memory.read_store, hk]

/-- Past the stored bytes the array is as before. -/
theorem Memory.read_store_zero_past (m : Memory) {bytes : List Byte} {a : Nat} (ha : bytes.length ≤ a) :
    Memory.read (Memory.store m 0 bytes) a = Memory.read m a := by
  simp [Memory.read_store, Nat.not_lt_of_le ha]

end Sys2Proof.Machine

namespace Sys2Proof.Proofs

open Sys2Proof Sys2Proof.Machine

/-- Settles O14: the buffer that the completing ENCODE leaves is the old one with the frame stored from index 0. -/
theorem encodeChangesOnlyItsWorkingBuffer : Obligations.EncodeChangesOnlyItsWorkingBuffer := by
  intro cmd payload s hinit hlen
  exact ⟨Memory.store s.encBuf 0 (frameBytes s.cfg cmd payload), _, frameBytes s.cfg cmd payload, _,
    (exec_encode cmd payload s).trans (execEncode_completes cmd hinit hlen), rfl,
    fun _ hk => Memory.read_store_zero _ _ hk, fun _ ha => Memory.read_store_zero_past _ ha⟩

/-- Settles O15: the TX event holds the frame, and the frame's length is below 2^32, so the result counts it. -/
theorem encodeResultCountsTheFrame : Obligations.EncodeResultCountsTheFrame := by
  intro cmd payload s t h
  rw [exec_encode] at h
  obtain ⟨-, hlen, rfl⟩ := execEncode_next h
  refine ⟨frameBytes s.cfg cmd payload, _, rfl, length_frameBytes s.cfg cmd payload, ?_⟩
  rw [BitVec.toNat_ofNat, Nat.mod_eq_of_lt ((length_frameBytes_le cmd hlen).trans_lt (encCapacity_lt s.cfg))]

/-- Settles O18: what a completing ENCODE adds to the trace depends on its operands and the configuration only. -/
theorem encodeIgnoresHistory : Obligations.EncodeIgnoresHistory := by
  intro cmd payload s s' hcfg hinit hinit' hlen
  refine ⟨_, _, _, (exec_encode cmd payload s).trans (execEncode_completes cmd hinit hlen),
    (exec_encode cmd payload s').trans (execEncode_completes cmd hinit' (hcfg ▸ hlen)), rfl, ?_, rfl, rfl⟩
  rw [State.emit_trace, State.withEncBuf_trace, hcfg]

end Sys2Proof.Proofs
end

section
/-! PROOFS. The steps of a run (70_reset_and_hazards.md R252): what one step does with the request it takes, one lemma per
outcome, and the fault of an ENCODE over the maximum as a step records it. -/

namespace Sys2Proof.Machine

/-- A request that decodes is executed in the state without it, and the outcome is recorded. -/
theorem step_decoded {r : Request} {rest : List Request} {i : Instr} {s : State} (hp : s.pending = r :: rest)
    (hd : decode r = .ok i) : step s = record (s.withPending rest) (exec i (s.withPending rest)) := by
  simp only [step, hp, hd]

theorem step_malformed {r : Request} {rest : List Request} {s : State} {e : EncodingRefusal}
    (hp : s.pending = r :: rest) (hd : decode r = .error e) :
    step s = .next ((s.withPending rest).markRefusal (.encoding e)) := by
  simp only [step, hp, hd]
  rfl

/-- The first code stays (notes/assumptions/4.md). -/
theorem or_some_eq_ite {α : Type} [DecidableEq α] (mark : Option α) (code : α) :
    mark.or (some code) = if mark = none then some code else mark := by
  cases mark <;> rfl

end Sys2Proof.Machine

namespace Sys2Proof.Proofs

open Sys2Proof Sys2Proof.Machine

/-- Settles O49: a next state is recorded as it is. -/
theorem stepRunsTheDecodedOperation : Obligations.StepRunsTheDecodedOperation := by
  intro r rest i s t hp hd he
  exact (step_decoded hp hd).trans (congrArg (record (s.withPending rest)) he)

/-- Settles O50: of a fault only the mark is recorded. -/
theorem stepRecordsAFault : Obligations.StepRecordsAFault := by
  intro r rest i s f hp hd he
  refine ((step_decoded hp hd).trans (congrArg (record (s.withPending rest)) he)).trans ?_
  rw [← or_some_eq_ite]
  rfl

/-- Settles O51: of a request that does not decode only the refusal mark is recorded. -/
theorem stepRefusesAMalformedRequest : Obligations.StepRefusesAMalformedRequest := by
  intro r rest s e hp hd
  rw [step_malformed hp hd, ← or_some_eq_ite]
  rfl

/-- Settles O52: with nothing pending the step is the idle one. -/
theorem idleStepHoldsAllState : Obligations.IdleStepHoldsAllState := by
  intro s hp
  simp only [step, hp]
  rfl

/-- Settles O16: the fault of the operation, and what a step records of it when the mark is clear. -/
theorem encodeOverMaxFaults : Obligations.EncodeOverMaxFaults := by
  intro cmd payload s hinit hover
  refine ⟨execEncode_overMax cmd hinit hover, fun r rest hp hd hmark => ?_⟩
  rw [stepRecordsAFault r rest _ s .encodeOverMax hp hd (execEncode_overMax cmd hinit hover), if_pos hmark]

end Sys2Proof.Proofs
end

section
/-! PROOFS. What an operation's outcome depends on and what a completing one can change: nothing outside the block
(60_exceptions.md R211), neither the configuration nor the marks, and of the trace only its end. -/

namespace Sys2Proof.Machine

theorem State.SameBlock.refl (s : State) : s.SameBlock s := ⟨rfl, rfl, rfl, rfl⟩

/-- The state after an operation that completed: what it may have written of the block, and what it added to the trace. -/
def State.completed (s : State) (initDone : Bool) (c : Context) (buffer : Memory) (es : List TraceEntry) : State :=
  { s with initDone := initDone, ctx := c, encBuf := buffer, trace := s.trace ++ es }

/-- How an operation answers, said for all states of one block at once: with one fault, or with the same writes. -/
def AnswersAlike (i : Instr) (s : State) : Prop :=
  (∃ f, ∀ t : State, s.SameBlock t → exec i t = .fault f) ∨
    ∃ initDone c buffer es, ∀ t : State, s.SameBlock t → exec i t = .next (t.completed initDone c buffer es)

theorem execFeed_answersAlike (b : Byte) (s : State) : AnswersAlike (.feed b) s := by
  rcases execFeed_cases b s with ⟨hi, -⟩ | ⟨hi, f, hf, -⟩ | ⟨hi, m, hm, -⟩
  · exact .inl ⟨_, fun t ⟨_, hdone, _, _⟩ => execFeed_uninitialized b (hdone ▸ hi)⟩
  · exact .inl ⟨f, fun t ⟨hcfg, hdone, hctx, _⟩ => execFeed_faults (hdone ▸ hi) (hcfg ▸ hctx ▸ hf)⟩
  · refine .inr ⟨s.initDone, foldByte s.cfg m.ctx b, s.encBuf, m.out, fun t ⟨hcfg, hdone, hctx, hbuf⟩ => ?_⟩
    rw [exec_feed, execFeed_of_transition (hdone ▸ hi) (hcfg ▸ hctx ▸ hm), hcfg, hdone, hbuf]
    rfl

theorem execEncode_answersAlike (cmd : Byte) (payload : List Byte) (s : State) :
    AnswersAlike (.encode cmd payload) s := by
  rcases execEncode_cases cmd payload s with ⟨hi, -⟩ | ⟨hi, hover, -⟩ | ⟨hi, hlen, -⟩
  · exact .inl ⟨_, fun t ⟨_, hdone, _, _⟩ => execEncode_uninitialized cmd payload (hdone ▸ hi)⟩
  · exact .inl ⟨_, fun t ⟨hcfg, hdone, _, _⟩ => execEncode_overMax cmd (hdone ▸ hi) (hcfg ▸ hover)⟩
  · refine .inr ⟨s.initDone, s.ctx, Memory.store s.encBuf 0 (frameBytes s.cfg cmd payload),
      [.event (.tx (frameBytes s.cfg cmd payload)), .result (BitVec.ofNat 32 (frameBytes s.cfg cmd payload).length)],
      fun t ⟨hcfg, hdone, hctx, hbuf⟩ => ?_⟩
    rw [exec_encode, execEncode_completes cmd (hdone ▸ hi) (hcfg ▸ hlen), ← hcfg, hdone, hctx, hbuf]
    rfl

/-- Every operation answers alike in all states of one block: the trace, the pending operations and the marks are neither
read nor written, but for what is added to the trace. -/
theorem exec_answersAlike (i : Instr) (s : State) : AnswersAlike i s := by
  cases i with
  | init =>
    refine .inr ⟨true, s.ctx.toDefaults, s.encBuf, [], fun t ⟨_, _, hctx, hbuf⟩ => ?_⟩
    rw [exec_init, execInit_eq, hctx, hbuf, State.completed, List.append_nil]
  | feed b => exact execFeed_answersAlike b s
  | encode cmd payload => exact execEncode_answersAlike cmd payload s
  | crcBulk data =>
    refine .inr ⟨s.initDone, s.ctx, s.encBuf, [.result (zext32 (crcBulk data))], fun t ⟨_, hdone, hctx, hbuf⟩ => ?_⟩
    rw [exec_crcBulk, hdone, hctx, hbuf]
    rfl
  | crcUpdate acc b =>
    refine .inr ⟨s.initDone, s.ctx, s.encBuf, [.result (zext32 (crcStep acc b))], fun t ⟨_, hdone, hctx, hbuf⟩ => ?_⟩
    rw [exec_crcUpdate, hdone, hctx, hbuf]
    rfl

/-- The frame of every operation that completes. -/
theorem exec_next_completed {i : Instr} {s t : State} (h : exec i s = .next t) :
    ∃ initDone c buffer es, t = s.completed initDone c buffer es := by
  rcases exec_answersAlike i s with ⟨f, hf⟩ | ⟨initDone, c, buffer, es, hn⟩
  · rw [hf s (.refl s)] at h
    cases h
  · rw [hn s (.refl s)] at h
    cases h
    exact ⟨initDone, c, buffer, es, rfl⟩

theorem exec_ne_refused (i : Instr) (s : State) (r : Refusal) : exec i s ≠ .refused r := by
  rcases exec_answersAlike i s with ⟨f, hf⟩ | ⟨initDone, c, buffer, es, hn⟩
  · rw [hf s (.refl s)]
    nofun
  · rw [hn s (.refl s)]
    nofun

/-- What no step changes: the configuration, a mark that is set, and the trace up to its end. -/
structure State.Extends (t s : State) : Prop where
  cfg : t.cfg = s.cfg
  faultMark : ∀ f, s.faultMark = some f → t.faultMark = some f
  refusalMark : ∀ r, s.refusalMark = some r → t.refusalMark = some r
  trace : ∃ es, t.trace = s.trace ++ es

theorem step_extends {s t : State} (h : step s = .next t) : t.Extends s := by
  cases step_cases h with
  | idle => exact ⟨rfl, fun _ => id, fun _ => id, [], (List.append_nil _).symm⟩
  | malformed | refuses =>
    exact ⟨rfl, fun _ => id, fun _ hr => by simp [hr], [], (List.append_nil _).symm⟩
  | faults => exact ⟨rfl, fun _ hf => by simp [hf], fun _ => id, [], (List.append_nil _).symm⟩
  | runs r rest i t hp hd he =>
    obtain ⟨initDone, c, buffer, es, rfl⟩ := exec_next_completed he
    exact ⟨rfl, fun _ => id, fun _ => id, es, rfl⟩

end Sys2Proof.Machine

namespace Sys2Proof.Proofs

open Sys2Proof Sys2Proof.Machine

/-- Settles O42, from what every step keeps. -/
theorem stepNeverWritesTheConfiguration : Obligations.StepNeverWritesTheConfiguration :=
  fun _ _ h => (step_extends h).cfg

/-- Settles O44: a mark is only ever set where it was clear. -/
theorem marksAreNeverCleared : Obligations.MarksAreNeverCleared :=
  fun _ _ h => ⟨(step_extends h).faultMark, (step_extends h).refusalMark⟩

/-- Settles O45, from what every step keeps. -/
theorem stepOnlyExtendsTheTrace : Obligations.StepOnlyExtendsTheTrace :=
  fun _ _ h => (step_extends h).trace

/-- Settles O46: the operation answers alike in both states, for they have the same block. -/
theorem traceAndMarksChangeNoOutcome : Obligations.TraceAndMarksChangeNoOutcome := by
  intro i s s' hsame
  rcases exec_answersAlike i s with ⟨f, hf⟩ | ⟨initDone, c, buffer, es, hn⟩
  · rw [hf s (.refl s), hf s' hsame]
    exact ⟨fun _ ht => (by cases ht), fun _ => id⟩
  · rw [hn s (.refl s), hn s' hsame]
    refine ⟨fun t ht => ?_, fun _ hf => (by cases hf)⟩
    cases ht
    exact ⟨_, es, rfl, ⟨hsame.1, rfl, rfl, rfl⟩, rfl, rfl⟩

/-- Settles O43: of the completing operations INIT alone writes `init_done`. -/
theorem initDoneChangesOnlyByInit : Obligations.InitDoneChangesOnlyByInit := by
  intro i s t h
  cases i with
  | init =>
    rw [exec_init, execInit_eq] at h
    cases h
    exact .inl ⟨rfl, rfl⟩
  | feed b =>
    rw [exec_feed] at h
    obtain ⟨-, m, -, rfl⟩ := execFeed_next h
    exact .inr ⟨nofun, rfl⟩
  | encode cmd payload =>
    rw [exec_encode] at h
    obtain ⟨-, -, rfl⟩ := execEncode_next h
    exact .inr ⟨nofun, rfl⟩
  | crcBulk data | crcUpdate acc b =>
    cases h
    exact .inr ⟨nofun, rfl⟩

end Sys2Proof.Proofs
end

section
/-! PROOFS. What a FEED emits and leaves alone (42_decoder.md section 4), and under which condition each operation faults
(60_exceptions.md R215 to R218). -/

namespace Sys2Proof.Machine

/-! ## The output of a transition -/

/-- A transition emits nothing, one resync label, or, at the second trailer byte, a FRAME and its COMPLETE label. -/
theorem Transits.out_cases {cfg : Config} {c : Context} {b : Byte} {m : Moved} (h : Transits cfg c b m) :
    m.out = [] ∨ (∃ cause, m.out = [.resync cause]) ∨
      (c.state = .waitEnd2 ∧ b = lo8 cfg.trailer ∧ m.out = [.event (frameEvent c), .resync .complete]) := by
  cases h with
  | header1Match | header1Stay | header2Match | lengthHigh | lengthOk | cmdEmpty | cmdData | dataLast | dataMore
  | crcHigh | crcOk | end1Match => exact .inl rfl
  | header2Drop | lengthZero | lengthOverflow | crcDrop | end1Drop | end2Drop => exact .inr (.inl ⟨_, rfl⟩)
  | end2Match hs hb => exact .inr (.inr ⟨hs, hb, rfl⟩)

/-- A transition keeps the payload buffer, or it is ReadData's and writes the byte at the index. -/
theorem Transits.buf_cases {cfg : Config} {c : Context} {b : Byte} {m : Moved} (h : Transits cfg c b m) :
    m.ctx.buf = c.buf ∨ (c.state = .readData ∧ m.ctx.buf = Memory.write c.buf c.idx.toNat b) := by
  cases h with
  | dataLast hs | dataMore hs => exact .inr ⟨hs, rfl⟩
  | header1Match | header1Stay | header2Match | header2Drop | lengthHigh | lengthZero | lengthOverflow | lengthOk
  | cmdEmpty | cmdData | crcHigh | crcDrop | crcOk | end1Match | end1Drop | end2Match | end2Drop => exact .inl rfl

/-- A FRAME carries as many bytes as its count says. -/
theorem frameEvent_eq (c : Context) :
    ∃ bytes, frameEvent c = .frame c.cmd c.idx bytes ∧ bytes.length = c.idx.toNat :=
  ⟨_, rfl, Memory.length_load ..⟩

/-! ## Faults -/

/-- Every fault of an operation, with the condition that 60_exceptions.md R215 gives it. -/
inductive Faults (s : State) : Instr → Fault → Prop
  | feedUninitialized (b : Byte) (hi : s.initDone = false) : Faults s (.feed b) .notInitialized
  | encodeUninitialized (cmd : Byte) (payload : List Byte) (hi : s.initDone = false) :
      Faults s (.encode cmd payload) .notInitialized
  | overMax (cmd : Byte) (payload : List Byte) (hover : s.cfg.max < payload.length) :
      Faults s (.encode cmd payload) .encodeOverMax
  | internal (b : Byte) (hi : s.initDone = true) (ht : transition s.cfg s.ctx b = .error .internal) :
      Faults s (.feed b) .internal

/-- The inversion of a fault. -/
theorem exec_fault_cases {i : Instr} {s : State} {f : Fault} (h : exec i s = .fault f) : Faults s i f := by
  cases i with
  | init | crcBulk | crcUpdate => cases h
  | feed b =>
    rw [exec_feed] at h
    rcases execFeed_cases b s with ⟨hi, he⟩ | ⟨hi, f, ht, he⟩ | ⟨-, m, -, he⟩ <;> rw [he] at h <;> cases h
    · exact .feedUninitialized b hi
    · obtain ⟨rfl, -⟩ := transition_fault_cases ht
      exact .internal b hi ht
  | encode cmd payload =>
    rw [exec_encode] at h
    rcases execEncode_cases cmd payload s with ⟨hi, he⟩ | ⟨-, hover, he⟩ | ⟨-, -, he⟩ <;> rw [he] at h <;> cases h
    · exact .encodeUninitialized cmd payload hi
    · exact .overMax cmd payload hover

end Sys2Proof.Machine

namespace Sys2Proof.Proofs

open Sys2Proof Sys2Proof.Machine

/-- Settles O32: the ten states in each window. -/
theorem crcWindowsHoldTheirStates : Obligations.CrcWindowsHoldTheirStates := by
  intro st
  cases st <;> simp

/-- Settles O33: a completing FEED writes the context and the trace, and of the context's buffer what its transition
does. -/
theorem feedLeavesTheRestAlone : Obligations.FeedLeavesTheRestAlone := by
  intro b s t h
  rw [exec_feed] at h
  obtain ⟨-, m, hm, rfl⟩ := execFeed_next h
  refine ⟨rfl, rfl, rfl, rfl, rfl, rfl, ?_⟩
  rw [State.emit_ctx, State.withCtx_ctx, foldByte_buf]
  rcases hm.buf_cases with hbuf | ⟨hs, hbuf⟩ <;> rw [hbuf]
  · exact ⟨fun _ => rfl, fun _ _ => rfl⟩
  · exact ⟨fun hne => absurd hs hne, fun _ ha => Memory.read_write_other _ b ha⟩

/-- Settles O34: only the third kind of output holds an event, and that one is a FRAME. -/
theorem feedEmitsAtMostOneFrame : Obligations.FeedEmitsAtMostOneFrame := by
  intro b s t h
  rw [exec_feed] at h
  obtain ⟨-, m, hm, rfl⟩ := execFeed_next h
  refine ⟨m.out, rfl, ?_⟩
  rcases hm.out_cases with hout | ⟨cause, hout⟩ | ⟨hs, hb, hout⟩ <;> rw [hout]
  · simp [events]
  · simp [events]
  · simp [events, frameEvent, hs, hb]

/-- Settles O47: an operation answers with a fault or a next state, and each fault has its one condition. -/
theorem execNeverRefuses : Obligations.ExecNeverRefuses := by
  intro i s
  refine ⟨exec_ne_refused i s, fun h => ?_, fun h => ?_⟩
  · cases exec_fault_cases h with
    | feedUninitialized _ hi | encodeUninitialized _ _ hi => exact hi
  · cases exec_fault_cases h with
    | overMax cmd payload hover => exact ⟨cmd, payload, rfl, hover⟩

/-- Settles O48: the outputs of each operation's one way to complete; a FEED's are those of its transition, without the
label. -/
theorem outputsOfEachOperation : Obligations.OutputsOfEachOperation := by
  intro i s t h
  cases i with
  | init =>
    rw [exec_init, execInit_eq] at h
    cases h
    exact ⟨[], (List.append_nil _).symm, rfl⟩
  | feed b =>
    rw [exec_feed] at h
    obtain ⟨-, m, hm, rfl⟩ := execFeed_next h
    refine ⟨m.out, rfl, ?_⟩
    rcases hm.out_cases with hout | ⟨cause, hout⟩ | ⟨-, -, hout⟩
    · exact .inl (by rw [hout]; rfl)
    · exact .inl (by rw [hout]; rfl)
    · obtain ⟨bytes, hframe, hlen⟩ := frameEvent_eq s.ctx
      exact .inr ⟨s.ctx.cmd, s.ctx.idx, bytes, by rw [hout, hframe]; rfl, hlen⟩
  | encode cmd payload =>
    rw [exec_encode] at h
    obtain ⟨-, -, rfl⟩ := execEncode_next h
    exact ⟨_, rfl, _, _, rfl⟩
  | crcBulk data | crcUpdate acc b =>
    cases h
    exact ⟨_, rfl, _, rfl⟩

end Sys2Proof.Proofs
end

section
/-! PROOFS. The invariant of the block (10_state.md R45, R46): every transition, and so every operation and every step,
keeps it, and under it no operation raises INTERNAL. -/

namespace Sys2Proof.Machine

/-! ## The index and the length as numbers -/

/-- Counting one more inside the buffer does not wrap: `MAX_PAYLOAD` is at most 65534. -/
theorem toNat_idx_succ {cfg : Config} {idx : Half} (h : idx.toNat < cfg.max) : (idx + 1).toNat = idx.toNat + 1 := by
  have := cfg.maxPayload.isLt
  rw [Config.max] at h
  rw [BitVec.toNat_add]
  exact Nat.mod_eq_of_lt (by simp; omega)

theorem toNat_len_pred {len : Half} (h : 1 ≤ len.toNat) : (len - 1).toNat = len.toNat - 1 :=
  BitVec.toNat_sub_of_le (by simpa [BitVec.le_def] using h)

/-! ## The context -/

theorem Context.toDefaults_inv (cfg : Config) (c : Context) : c.toDefaults.Inv cfg := ⟨rfl, rfl, rfl, rfl, rfl⟩

/-- With the whole payload read the invariant holds in the state that R159 names, with or without a CRC field. -/
theorem Context.inv_of_afterPayload {cfg : Config} {c : Context} (hs : c.state = afterPayload cfg)
    (hpos : 1 ≤ c.len.toNat) (hmax : c.len.toNat ≤ cfg.max + 1) (hidx : c.idx.toNat = c.len.toNat - 1) :
    c.Inv cfg := by
  cases he : cfg.crcEnabled <;> simp only [afterPayload, he] at hs <;> simp [Context.Inv, hs, hpos, hmax, hidx, he]

/-- The invariant bounds the accumulator only where no window folds. -/
theorem foldByte_inv {cfg : Config} {c : Context} (b : Byte) (h : c.Inv cfg) : (foldByte cfg c b).Inv cfg := by
  cases hw : inWindow cfg.window c.state
  · rwa [foldByte_outside b hw]
  · rw [foldByte_inside b hw]
    cases hs : c.state with
    | waitHeader1 | waitHeader2 => simp [hs] at hw
    | waitLength | waitLengthLow => simp [Context.Inv]
    | waitCmd | readData | waitCrc1 | waitCrc2 | waitEnd1 | waitEnd2 =>
      simp only [Context.Inv, hs] at h ⊢
      exact h

/-- Every transition keeps the context's invariant. -/
theorem Transits.inv {cfg : Config} {c : Context} {b : Byte} {m : Moved} (h : Transits cfg c b m) (hinv : c.Inv cfg) :
    m.ctx.Inv cfg := by
  cases h with
  | header2Drop | lengthZero | lengthOverflow | crcDrop | end1Drop | end2Match | end2Drop =>
    exact Context.toDefaults_inv cfg c
  | header1Stay => exact hinv
  | header2Match | lengthHigh => trivial
  | header1Match hs | end1Match hs =>
    simp only [Context.Inv, hs] at hinv ⊢
    exact hinv
  | lengthOk hs hz hl => exact ⟨Nat.one_le_iff_ne_zero.mpr fun h => hz (BitVec.eq_of_toNat_eq h), hl⟩
  | cmdEmpty hs hl =>
    simp only [Context.Inv, hs] at hinv
    refine Context.inv_of_afterPayload rfl hinv.1 hinv.2 ?_
    simp [hl]
  | cmdData hs hl =>
    simp only [Context.Inv, hs] at hinv
    have hne : c.len.toNat ≠ 1 := fun h => hl (BitVec.eq_of_toNat_eq h)
    obtain ⟨hpos, hmax⟩ := hinv
    refine ⟨by simp only; omega, hmax, ?_⟩
    simp
    omega
  | dataLast hs hi hl =>
    simp only [Context.Inv, hs] at hinv
    obtain ⟨htwo, hmax, hlt⟩ := hinv
    have hpos : 1 ≤ c.len.toNat := by omega
    refine Context.inv_of_afterPayload rfl hpos hmax ?_
    simp only [hl, toNat_len_pred hpos]
  | dataMore hs hi hl =>
    simp only [Context.Inv, hs] at hinv
    obtain ⟨htwo, hmax, hlt⟩ := hinv
    have hne : c.idx.toNat + 1 ≠ c.len.toNat - 1 := by
      rw [← toNat_idx_succ hi, ← toNat_len_pred (by omega)]
      exact fun h => hl (BitVec.eq_of_toNat_eq h)
    refine ⟨htwo, hmax, ?_⟩
    simp only [toNat_idx_succ hi]
    omega
  | crcHigh hs =>
    simp only [Context.Inv, hs] at hinv
    exact hinv
  | crcOk hs =>
    simp only [Context.Inv, hs] at hinv
    obtain ⟨hpos, hmax, hidx, -⟩ := hinv
    exact ⟨hpos, hmax, hidx⟩

/-- Every transition keeps the payload buffer in canonical form: it writes below `MAX_PAYLOAD` only. -/
theorem Transits.wf_buf {cfg : Config} {c : Context} {b : Byte} {m : Moved} (h : Transits cfg c b m)
    (hwf : Memory.wf cfg.max c.buf = true) : Memory.wf cfg.max m.ctx.buf = true := by
  cases h with
  | dataLast _ hi | dataMore _ hi => exact Memory.wf_write _ _ _ b hwf hi
  | header1Match | header1Stay | header2Match | header2Drop | lengthHigh | lengthZero | lengthOverflow | lengthOk
  | cmdEmpty | cmdData | crcHigh | crcDrop | crcOk | end1Match | end1Drop | end2Match | end2Drop => exact hwf

/-- Under the invariant the payload index is inside the buffer wherever a transition uses it. -/
theorem Context.Inv.transition_ne_error {cfg : Config} {c : Context} (hinv : c.Inv cfg) (b : Byte) (f : Fault) :
    transition cfg c b ≠ .error f := by
  intro h
  rcases transition_fault_cases h with ⟨-, ⟨hs, hidx⟩ | ⟨hs, hidx⟩⟩ <;> simp only [Context.Inv, hs] at hinv <;> omega

/-! ## The state -/

/-- The invariant says nothing of the trace, the pending operations and the marks. -/
theorem State.Inv.of_sameBlock {s t : State} (hinv : s.Inv) (h : s.SameBlock t) : t.Inv := by
  obtain ⟨hcfg, hdone, hctx, hbuf⟩ := h
  rwa [State.Inv, ← hcfg, ← hdone, ← hctx, ← hbuf]

/-- Every operation that completes keeps the invariant. -/
theorem State.Inv.of_exec {i : Instr} {s t : State} (hinv : s.Inv) (h : exec i s = .next t) : t.Inv := by
  obtain ⟨hctx, hbuf, henc⟩ := hinv
  cases i with
  | init =>
    rw [exec_init, execInit_eq] at h
    cases h
    exact ⟨fun _ => s.ctx.toDefaults_inv s.cfg, hbuf, henc⟩
  | feed b =>
    rw [exec_feed] at h
    obtain ⟨hi, m, hm, rfl⟩ := execFeed_next h
    refine ⟨fun _ => foldByte_inv b (hm.inv (hctx hi)), ?_, henc⟩
    rw [State.emit_ctx, State.withCtx_ctx, foldByte_buf]
    exact hm.wf_buf hbuf
  | encode cmd payload =>
    rw [exec_encode] at h
    obtain ⟨-, hlen, rfl⟩ := execEncode_next h
    exact ⟨hctx, hbuf, Memory.wf_store _ _ _ 0 henc (by simpa using length_frameBytes_le cmd hlen)⟩
  | crcBulk | crcUpdate =>
    cases h
    exact ⟨hctx, hbuf, henc⟩

end Sys2Proof.Machine

namespace Sys2Proof.Proofs

open Sys2Proof Sys2Proof.Machine

/-- Settles O38: a step runs one operation, which keeps the invariant, or changes nothing of the block. -/
theorem stepKeepsTheInvariant : Obligations.StepKeepsTheInvariant := by
  intro s t hinv h
  cases step_cases h with
  | idle => exact hinv
  | malformed | faults | refuses => exact hinv.of_sameBlock ⟨rfl, rfl, rfl, rfl⟩
  | runs r rest i t hp hd he =>
    have hrest : (s.withPending rest).Inv := hinv.of_sameBlock ⟨rfl, rfl, rfl, rfl⟩
    exact hrest.of_exec he

/-- Settles O36: of the outcomes of a FEED the first needs `init_done` false and the second a faulting transition. -/
theorem feedAlwaysCompletesAfterInit : Obligations.FeedAlwaysCompletesAfterInit := by
  intro b s hinv hi
  rcases execFeed_cases b s with ⟨hno, -⟩ | ⟨-, f, ht, -⟩ | ⟨-, m, -, he⟩
  · exact absurd (hi.symm.trans hno) (by decide)
  · exact absurd ht ((hinv.1 hi).transition_ne_error b f)
  · exact ⟨_, he⟩

/-- Settles O37: INTERNAL is the fault of a transition, and the invariant rules that out. -/
theorem internalFaultUnreachable : Obligations.InternalFaultUnreachable := by
  intro i s hinv h
  cases exec_fault_cases h with
  | internal b hi ht => exact (hinv.1 hi).transition_ne_error b _ ht

/-- Settles O39: before INIT the invariant asks for canonical buffers only, and both are empty lists. -/
theorem resetMeetsTheInvariant : Obligations.ResetMeetsTheInvariant :=
  have hreset : ∀ cfg : Config, (State.resetWith cfg).Inv := fun cfg => ⟨nofun, State.resetWith_buffers_wf cfg⟩
  ⟨hreset, hreset Config.literal⟩

/-- Settles O40: the reset state is evaluated. -/
theorem resetIsUninitialized : Obligations.ResetIsUninitialized := by
  unfold Obligations.ResetIsUninitialized
  decide

end Sys2Proof.Proofs
end

section
/-! PROOFS. Whole frames (42_decoder.md section 4): one phase of a frame after the other, from scanning to the second
trailer byte, and what the guarantees say of each. -/

namespace Sys2Proof.Machine

/-! ## One byte of a run of FEEDs -/

/-- A byte that takes a row without output: the run goes on in the row's context, folded when its state is in the
window. -/
theorem runOps_feeds_moves {b : Byte} {s : State} {c c' : Context} (hi : s.initDone = true)
    (h : Transits s.cfg c b ⟨c', []⟩) (rest : List Byte) :
    runOps (feeds (b :: rest)) (s.withCtx c) =
      runOps (feeds rest)
        (s.withCtx { c' with acc := if inWindow s.cfg.window c'.state then crcStep c'.acc b else c'.acc }) :=
  runOps_cons (i := .feed b) (execFeed_moves (s := s.withCtx c) hi h) (feeds rest)

/-- A byte that takes a row ending in a resync: the run goes on in the resynchronized context. -/
theorem runOps_feeds_resyncs {b : Byte} {s : State} {c : Context} {es : List TraceEntry} (hi : s.initDone = true)
    (h : Transits s.cfg c b ⟨resync c, es⟩) (rest : List Byte) :
    runOps (feeds (b :: rest)) (s.withCtx c) = runOps (feeds rest) ((s.withCtx (resync c)).emit es) :=
  runOps_cons (i := .feed b) (execFeed_resyncs (s := s.withCtx c) hi h) (feeds rest)

/-! ## Scanning -/

/-- A byte that is not the first header byte leaves a scanning decoder as it is (42_decoder.md R179). -/
theorem runOps_feeds_noise {s : State} (hscan : s.Scanning) {noise : List Byte}
    (hnoise : ∀ b ∈ noise, b ≠ hi8 s.cfg.header) : runOps (feeds noise) s = .next s := by
  obtain ⟨hi, hs⟩ := hscan
  induction noise with
  | nil => rfl
  | cons b noise ih =>
    obtain ⟨hb, hrest⟩ := List.forall_mem_cons.mp hnoise
    have hw : inWindow s.cfg.window s.ctx.state = false := by simp [hs]
    refine (runOps_feeds_moves (c := s.ctx) hi (.header1Stay hs hb) noise).trans ?_
    rw [hw]
    exact ih hrest

/-- A byte met while scanning leaves the decoder before the header or inside it, with nothing emitted. -/
theorem exec_feed_scanning (b : Byte) {s : State} (hscan : s.Scanning) :
    ∃ c, exec (.feed b) s = .next (s.withCtx c) ∧ (c.state = .waitHeader1 ∨ c.state = .waitHeader2) := by
  obtain ⟨hi, hs⟩ := hscan
  by_cases hb : b = hi8 s.cfg.header
  · exact ⟨_, execFeed_moves hi (.header1Match hs hb), .inr rfl⟩
  · exact ⟨_, execFeed_moves hi (.header1Stay hs hb), .inl hs⟩

/-- A byte met before the header or inside it completes without an event. -/
theorem exec_feed_seeking (b : Byte) {s : State} (hi : s.initDone = true)
    (hs : s.ctx.state = .waitHeader1 ∨ s.ctx.state = .waitHeader2) :
    ∃ t es, exec (.feed b) s = .next t ∧ t.trace = s.trace ++ es ∧ events es = [] := by
  rcases hs with hs | hs
  · obtain ⟨c, hc, -⟩ := exec_feed_scanning b ⟨hi, hs⟩
    exact ⟨_, [], hc, (List.append_nil _).symm, rfl⟩
  · by_cases hb : b = lo8 s.cfg.header
    · exact ⟨_, [], execFeed_moves hi (.header2Match hs hb), (List.append_nil _).symm, rfl⟩
    · exact ⟨_, _, execFeed_resyncs hi (.header2Drop hs hb), rfl, rfl⟩

/-- Two bytes are too few for a frame: fed to a scanning decoder they raise no event. -/
theorem runOps_feeds_two_bytes (b b' : Byte) {s : State} (hscan : s.Scanning) :
    ∃ t es, runOps (feeds [b, b']) s = .next t ∧ t.trace = s.trace ++ es ∧ events es = [] := by
  obtain ⟨c, hc, hstate⟩ := exec_feed_scanning b hscan
  obtain ⟨t, es, ht, htrace, hevents⟩ := exec_feed_seeking b' (s := s.withCtx c) hscan.1 hstate
  exact ⟨t, es, (runOps_cons hc _).trans (runOps_cons ht _), htrace, hevents⟩

/-! ## Header and length field -/

/-- What the CRC window holds before the length field: in LITERAL the second header byte (42_decoder.md R174). -/
def windowStart (cfg : Config) : List Byte := if cfg.window = .literal then [lo8 cfg.header] else []

/-- The header and a length high byte, fed to a scanning decoder. -/
theorem runOps_feeds_to_lengthLow {s : State} (hscan : s.Scanning) (b : Byte) (rest : List Byte) :
    runOps (feeds (hi8 s.cfg.header :: lo8 s.cfg.header :: b :: rest)) s =
      runOps (feeds rest)
        (s.withCtx { s.ctx with
          state := .waitLengthLow
          len := join b (lo8 s.ctx.len)
          acc := crcBulk (windowStart s.cfg ++ [b]) }) := by
  obtain ⟨hi, hs⟩ := hscan
  refine (runOps_feeds_moves (c := s.ctx) hi (.header1Match hs rfl) _).trans ?_
  rw [runOps_feeds_moves hi (.header2Match rfl rfl), runOps_feeds_moves hi (.lengthHigh rfl)]
  cases hw : s.cfg.window <;> simp [hw, windowStart, crcBulk]

/-- The header and a legal length field, fed to a scanning decoder. -/
theorem runOps_feeds_to_cmd {s : State} (hscan : s.Scanning) {L : Half} (hzero : L ≠ 0x0000)
    (hmax : L.toNat ≤ s.cfg.max + 1) (rest : List Byte) :
    runOps (feeds (wire16 s.cfg.header ++ wire16 L ++ rest)) s =
      runOps (feeds rest)
        (s.withCtx { s.ctx with state := .waitCmd, len := L, acc := crcBulk (windowStart s.cfg ++ wire16 L) }) := by
  have hlen : join (hi8 (join (hi8 L) (lo8 s.ctx.len))) (lo8 L) = L := by simp
  refine (runOps_feeds_to_lengthLow hscan (hi8 L) (lo8 L :: rest)).trans ?_
  rw [runOps_feeds_moves hscan.1 (.lengthOk rfl (by rwa [hlen]) (by rwa [hlen]))]
  simp [crcBulk_append, wire16]

/-! ## cmd and payload -/

/-- Payload bytes up to the length, fed to a decoder in ReadData: they stand in the buffer from the index upwards. The
last of them is folded only when a CRC field follows, so the accumulator is named in that case. -/
theorem runOps_feeds_payload {s : State} (hi : s.initDone = true) {bytes : List Byte} (hne : bytes ≠ []) {c : Context}
    (hs : c.state = .readData) (hlen : c.len.toNat = c.idx.toNat + bytes.length + 1)
    (hmax : c.len.toNat ≤ s.cfg.max + 1) :
    ∃ acc, (s.cfg.crcEnabled = true → acc = bytes.foldl crcStep c.acc) ∧
      runOps (feeds bytes) (s.withCtx c) =
        .next (s.withCtx { c with
          state := afterPayload s.cfg
          idx := c.len - 1
          buf := Memory.store c.buf c.idx.toNat bytes
          acc := acc }) := by
  induction bytes generalizing c with
  | nil => exact absurd rfl hne
  | cons b rest ih =>
    rw [List.length_cons] at hlen
    have hidx : c.idx.toNat < s.cfg.max := by omega
    have hsucc : (c.idx + 1).toNat = c.idx.toNat + 1 := toNat_idx_succ hidx
    have hpred : (c.len - 1).toNat = c.len.toNat - 1 := toNat_len_pred (by omega)
    cases rest with
    | nil =>
      have hlast : c.idx + 1 = c.len - 1 := by
        apply BitVec.eq_of_toNat_eq
        rw [hsucc, hpred, hlen]
        rfl
      refine ⟨if s.cfg.crcEnabled then crcStep c.acc b else c.acc, fun he => if_pos he, ?_⟩
      rw [runOps_feeds_moves hi (.dataLast hs hidx hlast), ← hlast, inWindow_afterPayload]
      rfl
    | cons b' rest =>
      have hmore : c.idx + 1 ≠ c.len - 1 := by
        intro h
        have := congrArg BitVec.toNat h
        rw [hsucc, hpred, hlen, List.length_cons] at this
        omega
      rw [runOps_feeds_moves hi (.dataMore hs hidx hmore), inWindow_readData, if_pos rfl]
      obtain ⟨acc, hacc, hrun⟩ := ih (List.cons_ne_nil b' rest)
        (c := { c with
          buf := Memory.write c.buf c.idx.toNat b, idx := c.idx + 1, state := .readData, acc := crcStep c.acc b })
        rfl (by simp only [hsucc, hlen, List.length_cons]; omega) hmax
      refine ⟨acc, hacc, hrun.trans ?_⟩
      simp only [hsucc]
      rfl

/-- The context of a frame whose payload is all in the buffer, in the state `st` with this accumulator and received
CRC. -/
def Context.received (c : Context) (cmd : Byte) (payload : List Byte) (st : DecoderState) (acc rxcrc : Half) : Context where
  state := st
  idx := BitVec.ofNat 16 payload.length
  len := BitVec.ofNat 16 (payload.length + 1)
  cmd := cmd
  acc := acc
  rxcrc := rxcrc
  buf := Memory.store c.buf 0 payload

/-- A legal payload's length field counts it and the cmd byte. -/
theorem toNat_lengthField {cfg : Config} {payload : List Byte} (h : payload.length ≤ cfg.max) :
    (BitVec.ofNat 16 (payload.length + 1)).toNat = payload.length + 1 := by
  have := cfg.maxPayload.isLt
  rw [Config.max] at h
  exact Nat.mod_eq_of_lt (by omega)

/-- A legal payload's index after its last byte counts it. -/
theorem toNat_payloadCount {cfg : Config} {payload : List Byte} (h : payload.length ≤ cfg.max) :
    (BitVec.ofNat 16 payload.length).toNat = payload.length := by
  have := cfg.maxPayload.isLt
  rw [Config.max] at h
  exact Nat.mod_eq_of_lt (by omega)

theorem lengthField_sub_one (n : Nat) : BitVec.ofNat 16 (n + 1) - 1 = BitVec.ofNat 16 n := by
  rw [BitVec.ofNat_add]
  exact BitVec.add_sub_cancel _ _

/-- The cmd byte and the payload that the length announces, fed to a decoder in WaitCmd. -/
theorem runOps_feeds_body {s : State} (hi : s.initDone = true) (cmd : Byte) {payload : List Byte}
    (hmax : payload.length ≤ s.cfg.max) {c : Context} (hs : c.state = .waitCmd)
    (hlen : c.len = BitVec.ofNat 16 (payload.length + 1)) :
    ∃ acc, (s.cfg.crcEnabled = true → acc = (cmd :: payload).foldl crcStep c.acc) ∧
      runOps (feeds (cmd :: payload)) (s.withCtx c) =
        .next (s.withCtx (c.received cmd payload (afterPayload s.cfg) acc c.rxcrc)) := by
  have hcount : c.len.toNat = payload.length + 1 := by rw [hlen, toNat_lengthField hmax]
  cases payload with
  | nil =>
    rw [runOps_feeds_moves hi (.cmdEmpty hs hlen), inWindow_afterPayload, hlen]
    exact ⟨_, fun he => if_pos he, rfl⟩
  | cons b rest =>
    have hone : c.len ≠ 1 := by
      intro h
      rw [h, List.length_cons] at hcount
      exact absurd hcount (by simp)
    rw [runOps_feeds_moves hi (.cmdData hs hone), inWindow_readData, if_pos rfl]
    obtain ⟨acc, hacc, hrun⟩ := runOps_feeds_payload hi (List.cons_ne_nil b rest)
      (c := { c with cmd := cmd, idx := 0x0000, state := .readData, acc := crcStep c.acc cmd })
      rfl (by simp [hcount]) (by simp only [hcount]; omega)
    refine ⟨acc, hacc, hrun.trans ?_⟩
    simp only [hlen, lengthField_sub_one]
    rfl

/-- Everything of a frame up to its payload's end, fed to a scanning decoder. -/
theorem runOps_feeds_to_afterPayload {s : State} (hscan : s.Scanning) (cmd : Byte) {payload : List Byte}
    (hmax : payload.length ≤ s.cfg.max) :
    ∃ acc, (s.cfg.crcEnabled = true → acc = crcBulk (windowStart s.cfg ++ coveredBytes cmd payload)) ∧
      runOps (feeds (wire16 s.cfg.header ++ coveredBytes cmd payload)) s =
        .next (s.withCtx (s.ctx.received cmd payload (afterPayload s.cfg) acc s.ctx.rxcrc)) := by
  have hcount := toNat_lengthField hmax
  have hzero : BitVec.ofNat 16 (payload.length + 1) ≠ 0x0000 := by
    intro h
    rw [h] at hcount
    exact absurd hcount (by simp)
  have hcovered : coveredBytes cmd payload = wire16 (BitVec.ofNat 16 (payload.length + 1)) ++ (cmd :: payload) := by
    simp [coveredBytes]
  rw [hcovered, ← List.append_assoc, ← List.append_assoc, runOps_feeds_to_cmd hscan hzero (by omega),
    crcBulk_append _ (cmd :: payload)]
  exact runOps_feeds_body hscan.1 cmd hmax
    (c := { s.ctx with
      state := .waitCmd
      len := BitVec.ofNat 16 (payload.length + 1)
      acc := crcBulk (windowStart s.cfg ++ wire16 (BitVec.ofNat 16 (payload.length + 1))) })
    rfl rfl

/-! ## CRC field and trailer -/

/-- A frame up to any CRC high byte, fed to a scanning decoder of a block with the CRC field; the LITERAL window folds
that byte too. -/
theorem runOps_feeds_to_waitCrc2 {s : State} (hscan : s.Scanning) (he : s.cfg.crcEnabled = true) (cmd : Byte)
    {payload : List Byte} (hmax : payload.length ≤ s.cfg.max) (crcHigh : Byte) :
    runOps (feeds (wire16 s.cfg.header ++ coveredBytes cmd payload ++ [crcHigh])) s =
      .next (s.withCtx (s.ctx.received cmd payload .waitCrc2
        (if s.cfg.window = .literal then crcBulk (windowStart s.cfg ++ coveredBytes cmd payload ++ [crcHigh])
          else crcBulk (windowStart s.cfg ++ coveredBytes cmd payload))
        (join crcHigh (lo8 s.ctx.rxcrc)))) := by
  obtain ⟨acc, hacc, hrun⟩ := runOps_feeds_to_afterPayload hscan cmd hmax
  have hstate : afterPayload s.cfg = .waitCrc1 := by simp [afterPayload, he]
  rw [feeds_append, runOps_append hrun, hacc he, runOps_feeds_moves hscan.1 (.crcHigh hstate),
    inWindow_waitCrc2, crcBulk_append _ [crcHigh]]
  simp only [decide_eq_true_eq]
  rfl

/-- With the MATCHED window nothing is folded before the length field. -/
theorem windowStart_matched {cfg : Config} (hw : cfg.window = .matched) : windowStart cfg = [] := by
  simp [windowStart, hw]

theorem windowStart_literal {cfg : Config} (hw : cfg.window = .literal) : windowStart cfg = [lo8 cfg.header] := by
  simp [windowStart, hw]

/-- The same with the MATCHED window: the accumulator is the encoder's CRC. -/
theorem runOps_feeds_to_waitCrc2_matched {s : State} (hscan : s.Scanning) (hw : s.cfg.window = .matched)
    (he : s.cfg.crcEnabled = true) (cmd : Byte) {payload : List Byte} (hmax : payload.length ≤ s.cfg.max)
    (crcHigh : Byte) :
    runOps (feeds (wire16 s.cfg.header ++ coveredBytes cmd payload ++ [crcHigh])) s =
      .next (s.withCtx (s.ctx.received cmd payload .waitCrc2 (crcBulk (coveredBytes cmd payload))
        (join crcHigh (lo8 s.ctx.rxcrc)))) := by
  rw [runOps_feeds_to_waitCrc2 hscan he cmd hmax, windowStart_matched hw, List.nil_append, if_neg (by simp [hw])]

/-- A frame without its last byte. -/
def frameFront (cfg : Config) (cmd : Byte) (payload : List Byte) : List Byte :=
  wire16 cfg.header ++ coveredBytes cmd payload ++ crcField cfg (coveredBytes cmd payload) ++ [hi8 cfg.trailer]

theorem frameBytes_eq_front (cfg : Config) (cmd : Byte) (payload : List Byte) :
    frameBytes cfg cmd payload = frameFront cfg cmd payload ++ [lo8 cfg.trailer] := by
  simp [frameBytes, frameFront, wire16]

/-- Everything of the encoder's frame but its last byte, fed to a scanning decoder of a MATCHED block: the CRC, where
there is one, agrees. -/
theorem runOps_feeds_frameFront {s : State} (hscan : s.Scanning) (hw : s.cfg.window = .matched) (cmd : Byte)
    {payload : List Byte} (hmax : payload.length ≤ s.cfg.max) :
    ∃ acc rxcrc, runOps (feeds (frameFront s.cfg cmd payload)) s =
      .next (s.withCtx (s.ctx.received cmd payload .waitEnd2 acc rxcrc)) := by
  cases he : s.cfg.crcEnabled with
  | true =>
    have hsplit : frameFront s.cfg cmd payload =
        wire16 s.cfg.header ++ coveredBytes cmd payload ++ [hi8 (crcBulk (coveredBytes cmd payload))] ++
          [lo8 (crcBulk (coveredBytes cmd payload)), hi8 s.cfg.trailer] := by
      simp [frameFront, crcField, he, wire16]
    refine ⟨crcBulk (coveredBytes cmd payload), crcBulk (coveredBytes cmd payload), ?_⟩
    rw [hsplit, feeds_append, runOps_append (runOps_feeds_to_waitCrc2_matched hscan hw he cmd hmax _),
      runOps_feeds_moves hscan.1 (.crcOk rfl fun _ => by simp [Context.received]),
      runOps_feeds_moves hscan.1 (.end1Match rfl rfl)]
    simp [Context.received]
  | false =>
    obtain ⟨acc, -, hrun⟩ := runOps_feeds_to_afterPayload hscan cmd hmax
    have hstate : afterPayload s.cfg = .waitEnd1 := by simp [afterPayload, he]
    have hsplit : frameFront s.cfg cmd payload =
        wire16 s.cfg.header ++ coveredBytes cmd payload ++ [hi8 s.cfg.trailer] := by
      simp [frameFront, crcField, he]
    refine ⟨acc, s.ctx.rxcrc, ?_⟩
    rw [hsplit, feeds_append, runOps_append hrun, runOps_feeds_moves hscan.1 (.end1Match hstate rfl)]
    simp
    rfl

/-- The last byte of the frame delivers the payload from the buffer. -/
theorem runOps_feeds_last {s : State} (hi : s.initDone = true) (cmd : Byte) {payload : List Byte}
    (hmax : payload.length ≤ s.cfg.max) (acc rxcrc : Half) :
    runOps (feeds [lo8 s.cfg.trailer]) (s.withCtx (s.ctx.received cmd payload .waitEnd2 acc rxcrc)) =
      .next ((s.withCtx (resync (s.ctx.received cmd payload .waitEnd2 acc rxcrc))).emit
        [.event (.frame cmd (BitVec.ofNat 16 payload.length) payload), .resync .complete]) := by
  have hcount := toNat_payloadCount hmax
  have hframe : frameEvent (s.ctx.received cmd payload .waitEnd2 acc rxcrc) =
      .frame cmd (BitVec.ofNat 16 payload.length) payload := by
    simp only [frameEvent, Context.received, hcount, Memory.load_store]
  rw [runOps_feeds_resyncs hi (.end2Match rfl rfl (hcount.trans_le hmax)), hframe, feeds_nil, runOps_nil]

end Sys2Proof.Machine

namespace Sys2Proof.Proofs

open Sys2Proof Sys2Proof.Machine

/-- Settles O54: the decoder takes the frame's front to WaitEnd2 without output, and the last trailer byte delivers the
payload from the buffer. -/
theorem loopbackDeliversThePayload : Obligations.LoopbackDeliversThePayload := by
  intro cmd payload s hscan hw hmax
  have hencode := (exec_encode cmd payload s).trans (execEncode_completes cmd hscan.1 hmax)
  set e := (s.withEncBuf (Memory.store s.encBuf 0 (frameBytes s.cfg cmd payload))).emit
    [.event (.tx (frameBytes s.cfg cmd payload)), .result (BitVec.ofNat 32 (frameBytes s.cfg cmd payload).length)]
  obtain ⟨acc, rxcrc, hfront⟩ := runOps_feeds_frameFront (s := e) hscan hw cmd hmax
  have hwhole : runOps (feeds (frameBytes s.cfg cmd payload)) e =
      .next ((e.withCtx (resync (e.ctx.received cmd payload .waitEnd2 acc rxcrc))).emit
        [.event (.frame cmd (BitVec.ofNat 16 payload.length) payload), .resync .complete]) := by
    rw [frameBytes_eq_front, feeds_append]
    exact (runOps_append hfront _).trans (runOps_feeds_last (s := e) hscan.1 cmd hmax acc rxcrc)
  have hbutLast : runOps (feeds (frameBytes s.cfg cmd payload).dropLast) e =
      .next (e.withCtx (e.ctx.received cmd payload .waitEnd2 acc rxcrc)) := by
    rw [frameBytes_eq_front, List.dropLast_concat]
    exact hfront
  exact ⟨e, _, _, frameBytes s.cfg cmd payload, _, hencode, rfl, hbutLast, rfl, hwhole, rfl, rfl,
    rfl, rfl, rfl, rfl, rfl⟩

/-- Settles O57: every byte of the noise takes the row of WaitHeader1 that stays. -/
theorem noiseLeavesTheDecoderScanning : Obligations.NoiseLeavesTheDecoderScanning :=
  fun _ _ hscan hnoise => runOps_feeds_noise hscan hnoise

/-- Settles O55: the MATCHED window starts at the length field and ends before the CRC field. -/
theorem matchedAccumulatorCoversTheEncoderBytes : Obligations.MatchedAccumulatorCoversTheEncoderBytes :=
  fun cmd crcHigh _ _ hscan hw he hmax =>
    ⟨_, runOps_feeds_to_waitCrc2_matched hscan hw he cmd hmax crcHigh, rfl, rfl, rfl⟩

/-- Settles O56: the LITERAL window starts one byte earlier and ends one byte later. -/
theorem literalAccumulatorCoversTwoBytesMore : Obligations.LiteralAccumulatorCoversTwoBytesMore := by
  intro cmd crcHigh payload s hscan hw he hmax L
  refine ⟨_, runOps_feeds_to_waitCrc2 hscan he cmd hmax crcHigh, rfl, ?_, rfl⟩
  rw [windowStart_literal hw]
  exact if_pos hw

/-- Settles O58: the length low byte takes the dropping row, and a length over the maximum is not 0. -/
theorem overlongLengthIsRejected : Obligations.OverlongLengthIsRejected := by
  intro L s hscan hover
  have hlen : join (hi8 (join (hi8 L) (lo8 s.ctx.len))) (lo8 L) = L := by simp
  have hzero : L ≠ 0x0000 := by
    intro h
    rw [h] at hover
    exact absurd hover (Nat.not_lt_zero _)
  rw [runOps_feeds_to_lengthLow hscan,
    runOps_feeds_resyncs hscan.1 (.lengthOverflow rfl (by rwa [hlen]) (by rwa [hlen]))]
  exact ⟨_, rfl, ⟨hscan.1, rfl⟩, ⟨rfl, rfl, rfl, rfl, rfl⟩, rfl⟩

/-- Settles O59: the accumulator is the CRC of the flipped bytes, which is not the CRC received; what is left of the frame
is too short to raise an event. -/
theorem flippedBodyBitIsDropped : Obligations.FlippedBodyBitIsDropped := by
  intro body k hk bit s hscan hw he hmax L c flipped
  obtain ⟨cmd, payload, hflipped⟩ : ∃ cmd payload, flipped = cmd :: payload :=
    List.exists_cons_of_length_pos (by simp [flipped]; omega)
  have hcount : body.length = payload.length + 1 := by
    rw [← List.length_cons (a := cmd), ← hflipped, List.length_set]
  have hcovered : coveredBytes cmd payload = [hi8 L, lo8 L] ++ flipped := by
    rw [hflipped]
    simp [coveredBytes, L, hcount, wire16]
  have hcrc : crcBulk (coveredBytes cmd payload) ≠ c := by
    rw [hcovered]
    exact crcBulk_set_ne (data := [hi8 L, lo8 L] ++ body) (k := k + 2) (by simpa using hk) (xor_bit_ne _ bit)
  have hbeforeCrcLow := runOps_feeds_to_waitCrc2_matched hscan hw he cmd (payload := payload) (by omega) (hi8 c)
  set r := s.ctx.received cmd payload .waitCrc2 (crcBulk (coveredBytes cmd payload)) (join (hi8 c) (lo8 s.ctx.rxcrc))
  have hdrop : Transits s.cfg r (lo8 c) ⟨resync r, [.resync .crcMismatch]⟩ :=
    .crcDrop rfl he (by simpa [r, Context.received] using hcrc)
  obtain ⟨t, es, hrun, htrace, hevents⟩ := runOps_feeds_two_bytes (hi8 s.cfg.trailer) (lo8 s.cfg.trailer)
    (s := (s.withCtx (resync r)).emit [.resync .crcMismatch]) ⟨hscan.1, rfl⟩
  refine ⟨t, es, ?_, by simpa using htrace, hevents⟩
  have hsplit : [hi8 s.cfg.header, lo8 s.cfg.header, hi8 L, lo8 L] ++ flipped ++
      [hi8 c, lo8 c, hi8 s.cfg.trailer, lo8 s.cfg.trailer] =
      wire16 s.cfg.header ++ coveredBytes cmd payload ++ [hi8 c] ++ [lo8 c, hi8 s.cfg.trailer, lo8 s.cfg.trailer] := by
    simp [hcovered, wire16]
  rw [hsplit, feeds_append, runOps_append hbeforeCrcLow, runOps_feeds_resyncs hscan.1 hdrop, hrun]

/-- Settles O60: the first byte resyncs, the middle is noise to the scanning decoder, and the last byte is the first
header byte. -/
theorem lossCascadeContinues : Obligations.LossCascadeContinues := by
  intro middle s hi hs htrailer hheader hmiddle
  have hfirst : runOps (feeds [hi8 s.cfg.header]) s = .next ((s.withCtx (resync s.ctx)).emit [.resync .header2Mismatch]) :=
    runOps_feeds_resyncs (c := s.ctx) hi (.header2Drop hs hheader) []
  set r := (s.withCtx (resync s.ctx)).emit [.resync .header2Mismatch]
  have hscan : r.Scanning := ⟨hi, rfl⟩
  have hnoise : runOps (feeds middle) r = .next r := runOps_feeds_noise hscan hmiddle
  have hlast := runOps_feeds_moves (s := r) (c := r.ctx) hi (.header1Match rfl htrailer) []
  rw [List.append_assoc, feeds_append, runOps_append hfirst, feeds_append, runOps_append hnoise]
  exact ⟨_, hlast, hi, rfl, rfl⟩

end Sys2Proof.Proofs
end
